-- ==== Sys2Proof/Word.lean ====
section
/-! DEFINITION. The data types of the AES-128 engine: bytes, words, blocks, schedules and port buses.
Spec: `00_scope.md` rules R11 (bits, bytes) and R12 (blocks, matrices, words), `10_state.md` rule R33 (port widths). -/

namespace Sys2Proof

/-- A byte: bit 7 is the most significant (R11). -/
abbrev Byte := BitVec 8

/-- Half a byte, the value of one hexadecimal digit (R191). -/
abbrev Nibble := BitVec 4

/-- A 128-bit port value; byte `i` of a block stands at bits `[127-8i : 120-8i]` (R33, R52 item 6). -/
abbrev Bus := BitVec 128

/-- A word `[b0, b1, b2, b3]`: one column of the schedule, row 0 first (R12). -/
abbrev Word4 := Vector Byte 4

/-- A block `B[0..15]`; as a matrix `M[r,c] = B[r + 4*c]` (R12). -/
abbrev Block := Vector Byte 16

/-- The Round Key Schedule as 44 words (R23). -/
abbrev Schedule := Vector Word4 44

end Sys2Proof
end

