-- ==== Sys2Proof/Config.lean ====
section
/-! DEFINITION. The parameters the spec leaves open (`00_scope.md` rule R9, the table at the end of `92_eei_decisions.md`).
Each is an opaque constant without a body: no proof can use a value of it. No rule of the spec reads any of them
(assumption log 2); `RCON0` has a place in the table `RCON`, the other three only have a name. -/

namespace Sys2Proof

/-- `RCON0`, the placeholder byte at index 0 of the round-constant table (R116, decision D22). -/
opaque Config.rcon0 : Byte

/-- What `RESET_STYLE` fixes: the polarity of the reset input and whether it is sampled by the clock (R36, R240). -/
structure Config.ResetStyle where
  activeHigh : Bool
  synchronous : Bool
  deriving DecidableEq, Repr, Inhabited

/-- `RESET_STYLE` (R240, decision D14). -/
opaque Config.resetStyle : Config.ResetStyle

/-- What `CLK` fixes: the active edge and the frequency in hertz (R36). -/
structure Config.Clock where
  risingEdge : Bool
  frequency : Nat
  deriving DecidableEq, Repr, Inhabited

/-- `CLK` (R36, decision D28). -/
opaque Config.clk : Config.Clock

/-- `T_UOP(kind)`: clock cycles of a micro-operation, by its 3-bit `kind` (R251, decision D16). -/
opaque Config.tUop : BitVec 3 → Nat

end Sys2Proof
end

