-- ==== Sys2Proof/Syntax.lean ====
section
/-! DEFINITION. The instructions of the engine, one constructor per row of `spec/opcode_table.json`, in the table's order:
two commands (format `C`), ten micro-operations (format `U`) and the two selections of the substitution unit (format `S`).
Spec: `30_encoding.md` rules R80, R88, R89. -/

namespace Sys2Proof

/-- One instruction. Only `ark` carries an operand in its word (R86, R87); every other operand is implicit: the ports of a
command, the registers of a micro-operation, the byte on the operand input of the substitution unit. -/
inductive Instr
  /-- `DECRYPT` (R161): host command. -/
  | decrypt
  /-- `ENCRYPT` (R160): host command. -/
  | encrypt
  /-- `LOAD` (R165). -/
  | load
  /-- `KEYEXP` (R130). -/
  | keyexp
  /-- `ARK r` (R151); legal for `r` in 0..10 only (R86), see `Instr.wellFormed`. -/
  | ark (r : BitVec 4)
  /-- `INVSUB` (R141). -/
  | invsub
  /-- `SUB` (R140). -/
  | sub
  /-- `INVSHR` (R143). -/
  | invshr
  /-- `SHR` (R142). -/
  | shr
  /-- `INVMIX` (R148). -/
  | invmix
  /-- `MIX` (R146). -/
  | mix
  /-- `STORE` (R175). -/
  | store
  /-- `INVSBOX`: the substitution unit with select 0 (R89, R110). -/
  | invsbox
  /-- `SBOX`: the substitution unit with select 1 (R89, R110). -/
  | sbox
  deriving DecidableEq, Repr

end Sys2Proof
end

