-- ==== Sys2Proof/Machine/State.lean ====
section
/-! DEFINITION. The state of one engine, the reasons a step can stop, and the state after reset.
Spec: `10_state.md` rules R20 to R36 and R43, `70_reset_and_hazards.md` rule R240. -/

namespace Sys2Proof.Machine

/-- A cell of a data register: a byte, or `NOVALUE` (`none`). `NOVALUE` is a content the spec itself gives a cell: after
reset, and again whenever `LOAD` or `STORE` invalidates it (R14, R20). -/
abbrev RegCell := Option Byte

/-- A register of 16 cells: `ST`, `KEY`, `OUT` (R20). -/
abbrev BlockReg := Vector RegCell 16

/-- The memory space `WMEM`, the only writable one (R13, R50): address and byte, addresses strictly rising. Cell
`W[i][j]` has address `4*i + j`; an address that is not listed holds `NOVALUE`. -/
abbrev Memory := List Host.Cell

/-- The input ports, driven by the host; no step changes them (R33, R36). -/
structure Ports where
  /-- `cmd_valid`: the host offers a command. -/
  cmdValid : Bool
  /-- `cmd_fwd`: 1 = `ENCRYPT`, 0 = `DECRYPT`. -/
  cmdFwd : Bool
  /-- `cmd_block`: byte `i` at bits `[127-8i : 120-8i]`. -/
  cmdBlock : Bus
  /-- `cmd_key`, packed as `cmd_block`. -/
  cmdKey : Bus
  /-- `reset`, as the request it makes; polarity and sampling are `RESET_STYLE` (R36, assumption log 5). -/
  resetReq : Bool
  deriving DecidableEq, Repr

/-- The operand input and the result output of the substitution unit, for the two rows of format `S`, which take "their
operands as values" (R87). The unit has no state in the spec (R39); these are the model's own (assumption log 7). -/
structure SubUnit where
  /-- The byte on the operand input. -/
  x : Byte
  /-- The byte the unit last answered to a format `S` selection. -/
  y : Byte
  deriving DecidableEq, Repr

/-- Everything one engine holds (R20), the host's input ports (R33, R36) and the substitution unit's operand and result. -/
structure State where
  /-- `ST`, the State (R21). -/
  st : BlockReg
  /-- `KEY`, the Key (R22). -/
  key : BlockReg
  /-- `W`, the Round Key Schedule: memory space `WMEM` (R23). -/
  w : Memory
  /-- `OUT`, the result register (R24). -/
  out : BlockReg
  /-- `FWD`, the direction of the operation, or `NOVALUE` (R20). -/
  fwd : Option Bool
  /-- `UPC`, the micro-program counter, 6 bits (R26). -/
  upc : BitVec 6
  /-- `BUSY` (R29). -/
  busy : Bool
  /-- `DONE` (R30). -/
  done : Bool
  /-- The input ports. -/
  ports : Ports
  /-- The substitution unit's operand and result. -/
  subUnit : SubUnit
  deriving DecidableEq, Repr

/-- Why a step stops. The engine itself raises nothing (R210); these are the faults "that exist only in a model" (R219) and
two more conditions of the same sort, all unreachable from reset. -/
inductive Fault
  /-- `IllegalMicroOp` (R90, R219 a): a word outside the opcode map was to be executed; also `ARK r` with `r > 10`, which
  no legal word encodes. Raised by the sequencer's `runWord` and by `execArk`. Safe. -/
  | illegalMicroOp
  /-- A read of a cell that holds `NOVALUE` (R14, R219 b), and the host's read of `out_block` while `done = 0` (R35).
  Raised by every meaning that reads `ST`, `KEY` or `W`, by the fetch (`FWD`) and by `readOutBlock`. Safe. -/
  | readNoValue
  /-- A fetch with `UPC` outside 0..42: no micro-program entry (`93_implementation_defined.md` U11). Raised by the fetch.
  Safe. -/
  | fetchOutOfRange
  /-- `LOAD` outside an acceptance step: its precondition "BUSY = 0 and cmd_valid = 1" (R165) fails. Raised by `execLoad`.
  Safe (assumption log 6). -/
  | loadNotEnabled
  deriving DecidableEq, Repr

/-- Why an instruction has no meaning in this model; every instruction has one, so nothing raises it. -/
inductive Refusal
  /-- The instruction has no meaning yet. Safe. -/
  | notModelled (mnemonic : String)
  deriving DecidableEq, Repr

/-- A register whose 16 cells all hold `NOVALUE`. -/
def noBlock : BlockReg := Vector.replicate 16 none

/-- Ports on which the host offers no command and requests no reset (assumption log 3). -/
def Ports.quiet : Ports :=
  { cmdValid := false, cmdFwd := false, cmdBlock := 0#128, cmdKey := 0#128, resetReq := false }

/-- The state after the reset event (R43, R240), the host driving nothing (assumption log 3). -/
def State.reset : State :=
  { st := noBlock, key := noBlock, w := [], out := noBlock, fwd := none, upc := 0#6, busy := false, done := false,
    ports := Ports.quiet, subUnit := { x := 0#8, y := 0#8 } }

end Sys2Proof.Machine
end

