-- ==== Sys2Proof/Machine/Ops.lean ====
section
/-! DEFINITION. The named operations over registers and memory: the updates of `State`, the memory space `WMEM`, the advance
of `UPC`, the reset event. The engine takes no exception and returns from none (`60_exceptions.md` R210, R215 to R217):
the one event that changes its state from outside its own sequence is reset, `resetEvent`. -/

namespace Sys2Proof.Machine

/-! ## Memory space `WMEM` -/

/-- The byte at an address; an address that is not listed holds `NOVALUE` (R14). -/
def Memory.read : Memory → Nat → RegCell
  | [], _ => none
  | (b, v) :: m, a => if b = a then some v else Memory.read m a

/-- Write one byte, keeping the addresses strictly rising. -/
def Memory.write : Memory → Nat → Byte → Memory
  | [], a, v => [(a, v)]
  | (b, x) :: m, a, v =>
    if a < b then (a, v) :: (b, x) :: m
    else if a = b then (a, v) :: m
    else (b, x) :: Memory.write m a v

/-- Every address of `m` is above `lo` and the addresses rise strictly. -/
def Memory.risesAbove : Nat → Memory → Bool
  | _, [] => true
  | lo, (a, _) :: m => decide (lo < a) && Memory.risesAbove a m

/-- The canonical form: strictly rising addresses, all of them addresses of `WMEM` (0..175). An unlisted address holds
`NOVALUE`, and no entry does, so equal contents are equal lists. -/
def Memory.wf : Memory → Bool
  | [] => true
  | (a, v) :: m => Memory.risesAbove a m && ((a, v) :: m).all fun c => decide (c.1 < 176)

/-- The address of `W[i][j]`: byte index `j` of word index `i` (R50). -/
def wAddr (i j : Nat) : Nat := 4 * i + j

/-- Write word `i`, four cells (R55). -/
def Memory.writeWord (m : Memory) (i : Nat) (v : Word4) : Memory :=
  (((m.write (wAddr i 3) v[3]).write (wAddr i 2) v[2]).write (wAddr i 1) v[1]).write (wAddr i 0) v[0]

/-- Write the words of a list to word indices `i`, `i+1`, ... -/
def Memory.writeWords : Memory → Nat → List Word4 → Memory
  | m, _, [] => m
  | m, i, v :: vs => (Memory.writeWords m (i + 1) vs).writeWord i v

/-! ## Updates of the state, one per register -/

/-- All 16 cells hold the bytes of a block. -/
def holdBlock (b : Block) : BlockReg := b.map some

/-- `ST[0..15] <- b`. -/
def State.writeSt (s : State) (b : Block) : State := { s with st := holdBlock b }

/-- `KEY[0..15] <- b`. -/
def State.writeKey (s : State) (b : Block) : State := { s with key := holdBlock b }

/-- `OUT[0..15] <- b`. -/
def State.writeOut (s : State) (b : Block) : State := { s with out := holdBlock b }

/-- `W[0..43] <- ws`, all 176 cells. -/
def State.writeW (s : State) (ws : Schedule) : State := { s with w := Memory.writeWords s.w 0 ws.toList }

/-- `ST[0..15] <- NOVALUE`. -/
def State.invalidateSt (s : State) : State := { s with st := noBlock }

/-- `KEY[0..15] <- NOVALUE`. -/
def State.invalidateKey (s : State) : State := { s with key := noBlock }

/-- `W[0..43][0..3] <- NOVALUE`. -/
def State.invalidateW (s : State) : State := { s with w := [] }

/-- `OUT[0..15] <- NOVALUE`. -/
def State.invalidateOut (s : State) : State := { s with out := noBlock }

/-- `FWD <- d`, or `NOVALUE`. -/
def State.setFwd (s : State) (d : Option Bool) : State := { s with fwd := d }

/-- `upc <- t` (R13). -/
def State.setUpc (s : State) (t : BitVec 6) : State := { s with upc := t }

/-- `upc <- UPC + 1` (R27). -/
def State.advance (s : State) : State := s.setUpc (s.upc + 1#6)

/-- `BUSY <- b`, `DONE <- d`, together. -/
def State.setFlags (s : State) (b d : Bool) : State := { s with busy := b, done := d }

/-- The host drives the input ports (R181 a, c). -/
def State.drive (s : State) (p : Ports) : State := { s with ports := p }

/-- The substitution unit answers `y`. -/
def State.unitAnswers (s : State) (y : Byte) : State := { s with subUnit := { s.subUnit with y := y } }

/-! ## Reset -/

/-- The reset event, one atomic step: every data cell and `FWD` hold `NOVALUE`, `BUSY`, `DONE` and `UPC` are 0 (R240). It
abandons an operation in progress (R241) and discards a result (R242). The input ports are the host's and stay as driven.
DESIGN CHOICE: the model's own `subUnit` stays as it was, since the spec gives the unit no state to reset (R39; assumption
log 20). -/
def resetEvent (s : State) : State :=
  (((s.invalidateSt.invalidateKey.invalidateW.invalidateOut).setFwd none).setFlags false false).setUpc 0#6

end Sys2Proof.Machine
end

