-- ==== Sys2Proof/Machine/Flags.lean ====
section
/-! DEFINITION. The two flags `BUSY` and `DONE` and the status ports. There are no condition codes (R32).
Spec: `10_state.md` rules R29 to R34. -/

namespace Sys2Proof.Machine

/-- Acceptance: `BUSY <- 1`, `DONE <- 0` (R29, R30). -/
def State.flagsAccepted (s : State) : State := s.setFlags true false

/-- Completion: `BUSY <- 0`, `DONE <- 1` (R29, R30). -/
def State.flagsCompleted (s : State) : State := s.setFlags false true

/-- Output port `cmd_ready` = `NOT BUSY` (R34). -/
def cmdReady (s : State) : Bool := !s.busy

/-- Output port `busy` (R34). -/
def busyPort (s : State) : Bool := s.busy

/-- Output port `done` (R34). -/
def donePort (s : State) : Bool := s.done

/-- A command is accepted in a step with `cmd_valid = 1` and `cmd_ready = 1` (R33, R174). -/
def accepting (s : State) : Bool := s.ports.cmdValid && cmdReady s

end Sys2Proof.Machine
end

