-- ==== Sys2Proof/Machine/Operands.lean ====
section
/-! DEFINITION. Operand forms: blocks on the 128-bit ports, whole registers, round keys. A register or a round key is read
as a whole and only when every one of its cells holds a value.
Spec: `20_memory.md` rules R52, R55, R66, `10_state.md` rules R23, R33, R35. -/

namespace Sys2Proof.Machine

/-- Byte `i` of a port value: bits `[127-8i : 120-8i]` (R33, R52 item 6). -/
def portByte (v : Bus) (i : Nat) : Byte := v.extractLsb' (120 - 8 * i) 8

/-- The block on a 128-bit port (R95). -/
def unpack (v : Bus) : Block := Vector.ofFn fun i => portByte v i

/-- The port value of a block: byte 0 is the most significant byte (R52 item 6). -/
def pack (b : Block) : Bus :=
  b[0] ++ b[1] ++ b[2] ++ b[3] ++ b[4] ++ b[5] ++ b[6] ++ b[7] ++ b[8] ++ b[9] ++ b[10] ++ b[11] ++ b[12] ++ b[13] ++
    b[14] ++ b[15]

/-- The 16 bytes of a register, if every cell holds a value; `none` if some cell holds `NOVALUE` (R14). -/
def readCells (r : BlockReg) : Option Block :=
  if h : ∀ i : Fin 16, (r[i]).isSome then some (Vector.ofFn fun i => (r[i]).get (h i)) else none

/-- Read a whole register and go on with its block; a cell that holds `NOVALUE` makes the read a fault (R14, R219 b). -/
def withBlock (r : BlockReg) (k : Block → Host.Outcome State Fault Refusal) : Host.Outcome State Fault Refusal :=
  match readCells r with
  | some b => k b
  | none => .fault .readNoValue

/-- The cells of `RK(r)`: cell `k` is `W[4*r + (k div 4)][k mod 4]` (R23, R66). -/
def roundKeyCells (m : Memory) (r : Nat) : BlockReg :=
  Vector.ofFn fun k => m.read (wAddr (4 * r + k.val / 4) (k.val % 4))

/-- Round Key `r` of a schedule: `RK(r)[k] = W[4*r + (k div 4)][k mod 4]`, `r` in 0..10 (R23, R136). -/
def roundKey (ws : Schedule) (r : Fin 11) : Block :=
  Vector.ofFn fun k => (ws[4 * r.val + k.val / 4]'(by omega))[k.val % 4]'(by omega)

/-- Column `c` of a block as a word: `[B[4c], B[4c+1], B[4c+2], B[4c+3]]` (R12). -/
def column (b : Block) (c : Fin 4) : Word4 := Vector.ofFn fun j => b[4 * c.val + j.val]'(by omega)

/-- The result port `out_block` as the host may read it: a value only while `done = 1` (R35, R249); the read is otherwise
the host's fault (U8 of `93_implementation_defined.md`). Reading changes nothing (R56). -/
def readOutBlock (s : State) : Except Fault Bus :=
  if s.done then
    match readCells s.out with
    | some b => .ok (pack b)
    | none => .error .readNoValue
  else .error .readNoValue

end Sys2Proof.Machine
end

