-- ==== Sys2Proof/Machine/KeySchedule.lean ====
section
/-! DEFINITION. The Key Schedule: `expand_key` with its word helpers, and the micro-operation `KEYEXP`.
Spec: `42_key_schedule.md` rules R130 to R138. -/

namespace Sys2Proof.Machine

/-- XOR of two words, byte by byte (R12). -/
def xorWord (a b : Word4) : Word4 := Vector.ofFn fun j => a[j] ^^^ b[j]

/-- Cyclic left rotation by one position: `new[j] = old[(j + 1) mod 4]` (R134). -/
def rotWord (t : Word4) : Word4 := Vector.ofFn fun j => t[(j.val + 1) % 4]'(by omega)

/-- Each byte through the forward substitution box (R135). -/
def subWord (t : Word4) : Word4 := Vector.ofFn fun j => substitute t[j] true

/-- XOR of the round constant into byte 0, the row-0 byte; bytes 1..3 receive no constant (R133, R138 d). -/
def addRcon (t : Word4) (k : Nat) : Word4 := #v[t[0] ^^^ rcon k, t[1], t[2], t[3]]

/-- `temp` of word index `i`, from `W[i-1]`: rotation, substitution, round constant when `i mod 4 = 0` (R133). -/
def keyTemp (i : Nat) (prev : Word4) : Word4 :=
  if i % 4 = 0 then addRcon (subWord (rotWord prev)) (i / 4) else prev

/-- Step 2 of the expansion (R133): `n` further words from index `i` on, where `a`, `b`, `c`, `d` are
`W[i-4]`, `W[i-3]`, `W[i-2]`, `W[i-1]`; word `i` is `W[i-4] ^ temp`. -/
def scheduleFrom : (n i : Nat) → (a b c d : Word4) → List Word4
  | 0, _, _, _, _, _ => []
  | n + 1, i, a, b, c, d =>
    xorWord a (keyTemp i d) :: scheduleFrom n (i + 1) b c d (xorWord a (keyTemp i d))

theorem scheduleFrom_length (n i : Nat) (a b c d : Word4) : (scheduleFrom n i a b c d).length = n := by
  induction n generalizing i a b c d with
  | zero => rfl
  | succ n ih => simp [scheduleFrom, ih]

/-- The 44 words: the four columns of the key (R132), then 40 computed words (R133). -/
def expandList (key : Block) : List Word4 :=
  [column key 0, column key 1, column key 2, column key 3] ++
    scheduleFrom 40 4 (column key 0) (column key 1) (column key 2) (column key 3)

theorem expandList_length (key : Block) : (expandList key).length = 44 := by
  simp [expandList, scheduleFrom_length]

/-- `expand_key(key)` (R131). -/
def expandKey (key : Block) : Schedule := ⟨(expandList key).toArray, by simp [expandList_length]⟩

/-- `KEYEXP` (R130): `W[0..43] <- expand_key(KEY[0..15])`, `upc <- UPC + 1`. -/
def execKeyexp (s : State) : Host.Outcome State Fault Refusal :=
  withBlock s.key fun k => .next ((s.writeW (expandKey k)).advance)

end Sys2Proof.Machine
end

