-- ==== Sys2Proof/Machine/GfMultiplier.lean ====
section
/-! DEFINITION. The Finite-Field Multiplier: `xtime` and `gf_multiply` over GF(2^8) modulo 0x11B.
Spec: `41_gf_multiplier.md` rules R120 to R126. -/

namespace Sys2Proof.Machine

/-- The doubling step (R122): shift left by one; if the bit shifted out was 1, XOR 0x1B. -/
def xtime (a : Byte) : Byte :=
  if a.getLsbD 7 then (a <<< 1) ^^^ 0x1b#8 else a <<< 1

/-- One iteration of the multiplier: `acc` takes `a` when bit `k` of `b` is set, then `a` is doubled (R120). -/
def gfStep (b : Byte) (accA : Byte × Byte) (k : Nat) : Byte × Byte :=
  (if b.getLsbD k then accA.1 ^^^ accA.2 else accA.1, xtime accA.2)

/-- `gf_multiply(a, b)`: bits 0 to 7 of `b`, least significant first (R120, R121). -/
def gfMultiply (a b : Byte) : Byte := (([0, 1, 2, 3, 4, 5, 6, 7] : List Nat).foldl (gfStep b) (0#8, a)).1

end Sys2Proof.Machine
end

