-- ==== Sys2Proof/Machine/RoundTransformations.lean ====
section
/-! DEFINITION. The Round Transformations as functions on blocks, and their seven micro-operations.
Spec: `43_round_transformations.md` rules R140 to R156. -/

namespace Sys2Proof.Machine

/-! ## The functions -/

/-- `sub_bytes(S, fwd)` (R140, R141). -/
def subBytes (b : Block) (fwd : Bool) : Block := Vector.ofFn fun i => substitute b[i] fwd

/-- The old column that row `r` shows at column `c`: left rotation by `r` forward (R142), right rotation inverse (R143). -/
def shiftSource (fwd : Bool) (r c : Nat) : Nat := if fwd then (c + r) % 4 else (c + 4 - r) % 4

theorem shiftSource_lt (fwd : Bool) (r c : Nat) : shiftSource fwd r c < 4 := by
  unfold shiftSource; split <;> omega

/-- `shift_rows(S, fwd)`: `T[r + 4c] = S[r + 4*((c ± r) mod 4)]`, on indexed bytes (R142 to R144). -/
def shiftRows (b : Block) (fwd : Bool) : Block :=
  Vector.ofFn fun i =>
    b[i.val % 4 + 4 * shiftSource fwd (i.val % 4) (i.val / 4)]'(by
      have := shiftSource_lt fwd (i.val % 4) (i.val / 4); omega)

/-- A 4 by 4 matrix of bytes, by rows. -/
abbrev ByteMatrix := Vector (Vector Byte 4) 4

/-- The matrix with the given row 0 in which "each row is the row above rotated right by one position" (R147). -/
def rotatedRows (top : Vector Byte 4) : ByteMatrix :=
  Vector.ofFn fun r => Vector.ofFn fun j => top[(j.val + 4 - r.val) % 4]'(by omega)

/-- Contents of `MIXC` (R147): row 0 of the table, the rows below by rotation. -/
def mixc : ByteMatrix := rotatedRows #v[0x02, 0x03, 0x01, 0x01]

/-- Contents of `INVMIXC` (R149): row 0 of the table; its rows below are rotated in the same way. -/
def invmixc : ByteMatrix := rotatedRows #v[0x0e, 0x0b, 0x0d, 0x09]

/-- Row of a matrix times a column, in GF(2^8) (R146). -/
def rowTimes (row : Vector Byte 4) (s0 s1 s2 s3 : Byte) : Byte :=
  gfMultiply row[0] s0 ^^^ gfMultiply row[1] s1 ^^^ gfMultiply row[2] s2 ^^^ gfMultiply row[3] s3

/-- Every column multiplied by a matrix, the matrix on the left: output row `r` uses matrix row `r` (R146, R150). -/
def matrixTimes (m : ByteMatrix) (b : Block) : Block :=
  Vector.ofFn fun i =>
    rowTimes (m[i.val % 4]'(by omega)) (b[4 * (i.val / 4)]'(by omega)) (b[4 * (i.val / 4) + 1]'(by omega))
      (b[4 * (i.val / 4) + 2]'(by omega)) (b[4 * (i.val / 4) + 3]'(by omega))

/-- `mix_columns(S, fwd)` (R146, R148). -/
def mixColumns (b : Block) (fwd : Bool) : Block := matrixTimes (if fwd then mixc else invmixc) b

/-- `add_round_key(S, K)` (R151). -/
def addRoundKey (b k : Block) : Block := Vector.ofFn fun i => b[i] ^^^ k[i]

/-! ## The micro-operations -/

/-- What all seven have in common (R156): read all of `ST`, write all of `ST`, `upc <- UPC + 1`; nothing else. -/
def roundTransform (f : Block → Block) (s : State) : Host.Outcome State Fault Refusal :=
  withBlock s.st fun b => .next ((s.writeSt (f b)).advance)

/-- `SUB` (R140). -/
def execSub (s : State) : Host.Outcome State Fault Refusal := roundTransform (subBytes · true) s

/-- `INVSUB` (R141). -/
def execInvsub (s : State) : Host.Outcome State Fault Refusal := roundTransform (subBytes · false) s

/-- `SHR` (R142). -/
def execShr (s : State) : Host.Outcome State Fault Refusal := roundTransform (shiftRows · true) s

/-- `INVSHR` (R143). -/
def execInvshr (s : State) : Host.Outcome State Fault Refusal := roundTransform (shiftRows · false) s

/-- `MIX` (R146). -/
def execMix (s : State) : Host.Outcome State Fault Refusal := roundTransform (mixColumns · true) s

/-- `INVMIX` (R148). -/
def execInvmix (s : State) : Host.Outcome State Fault Refusal := roundTransform (mixColumns · false) s

/-- `ARK r` (R151): `ST` XOR Round Key `r`. A value of `r` above 10 is no legal word (R90). -/
def execArk (r : BitVec 4) (s : State) : Host.Outcome State Fault Refusal :=
  if r.toNat ≤ 10 then
    withBlock (roundKeyCells s.w r.toNat) fun k => roundTransform (addRoundKey · k) s
  else .fault .illegalMicroOp

end Sys2Proof.Machine
end

