-- ==== Sys2Proof/Machine/Orchestrator.lean ====
section
/-! DEFINITION. The Cipher Orchestrator: the pure functions `encrypt_block` and `decrypt_block`, the commands, `LOAD`, `STORE`.
Spec: `44_cipher_orchestrator.md` rules R160, R161, R165 to R171, R174, R175. -/

namespace Sys2Proof.Machine

/-! ## The pipelines as functions -/

/-- Rounds 1 to 9, ascending. -/
def middleRounds : List (Fin 11) := [1, 2, 3, 4, 5, 6, 7, 8, 9]

/-- One encryption round with round key `k` (R166). -/
def encryptRound (b k : Block) : Block :=
  addRoundKey (mixColumns (shiftRows (subBytes b true) true) true) k

/-- `encrypt_block(B, K)` (R168): the last round has no MixColumns (R167). -/
def encryptBlock (b k : Block) : Block :=
  let ws := expandKey k
  let mid := middleRounds.foldl (fun x r => encryptRound x (roundKey ws r)) (addRoundKey b (roundKey ws 0))
  addRoundKey (shiftRows (subBytes mid true) true) (roundKey ws 10)

/-- One decryption round with round key `k` (R169). -/
def decryptRound (b k : Block) : Block :=
  mixColumns (addRoundKey (subBytes (shiftRows b false) false) k) false

/-- `decrypt_block(B, K)` (R171): rounds 9 down to 1; the last inverse step has no InvMixColumns (R170). -/
def decryptBlock (b k : Block) : Block :=
  let ws := expandKey k
  let mid := middleRounds.reverse.foldl (fun x r => decryptRound x (roundKey ws r)) (addRoundKey b (roundKey ws 10))
  addRoundKey (subBytes (shiftRows mid false) false) (roundKey ws 0)

/-! ## LOAD, STORE and the commands -/

/-- The effect of `LOAD` (R165) with `FWD <- d`: the operand ports are sampled, `W` and `OUT` are invalidated. -/
def loadFrom (d : Bool) (s : State) : State :=
  (((((s.setFwd (some d)).writeSt (unpack s.ports.cmdBlock)).writeKey (unpack s.ports.cmdKey)).invalidateW.invalidateOut
    ).flagsAccepted).setUpc 1#6

/-- `LOAD` (R165): "precondition: BUSY = 0 and cmd_valid = 1"; executed in the acceptance step and by no other step. -/
def execLoad (s : State) : Host.Outcome State Fault Refusal :=
  if accepting s then .next (loadFrom s.ports.cmdFwd s) else .fault .loadNotEnabled

/-- `STORE` (R175). -/
def execStore (s : State) : Host.Outcome State Fault Refusal :=
  withBlock s.st fun b =>
    .next (((((s.writeOut b).invalidateSt.invalidateKey.invalidateW).flagsCompleted).setUpc 0#6))

/-- A command of direction `d` at the command port: accepted when `cmd_valid = 1` and `cmd_ready = 1`, and then it is `LOAD`
with `FWD <- d`; otherwise it "simply waits and has no effect" (R174). -/
def offerCommand (d : Bool) (s : State) : Host.Outcome State Fault Refusal :=
  .next (if accepting s then loadFrom d s else s)

/-- `ENCRYPT` (R160). -/
def execEncrypt (s : State) : Host.Outcome State Fault Refusal := offerCommand true s

/-- `DECRYPT` (R161). -/
def execDecrypt (s : State) : Host.Outcome State Fault Refusal := offerCommand false s

end Sys2Proof.Machine
end

