-- ==== Sys2Proof/Machine/Dispatch.lean ====
section
/-! DEFINITION. One arm per instruction: the meaning of each constructor of `Instr`. -/

namespace Sys2Proof.Machine

def exec (i : Instr) (s : State) : Host.Outcome State Fault Refusal :=
  match i with
  | .decrypt => Sys2Proof.Machine.execDecrypt s
  | .encrypt => Sys2Proof.Machine.execEncrypt s
  | .load => Sys2Proof.Machine.execLoad s
  | .keyexp => Sys2Proof.Machine.execKeyexp s
  | .ark r => Sys2Proof.Machine.execArk r s
  | .invsub => Sys2Proof.Machine.execInvsub s
  | .sub => Sys2Proof.Machine.execSub s
  | .invshr => Sys2Proof.Machine.execInvshr s
  | .shr => Sys2Proof.Machine.execShr s
  | .invmix => Sys2Proof.Machine.execInvmix s
  | .mix => Sys2Proof.Machine.execMix s
  | .store => Sys2Proof.Machine.execStore s
  | .invsbox => Sys2Proof.Machine.execInvsbox s
  | .sbox => Sys2Proof.Machine.execSbox s

end Sys2Proof.Machine
end

