-- ==== Sys2Proof/WellFormed.lean ====
section
/-! DEFINITION. Which instructions are legal: the one range condition of the encoding, `rk <= 10` for `ARK`.
Spec: `30_encoding.md` rules R86, R88, R96. -/

namespace Sys2Proof

/-- The spec's legality check. The only operand field with an illegal value is `rk` of `ARK`: "Values 11..15 are illegal
because the schedule has exactly 11 round keys indexed 0..10" (R86). -/
def Instr.wellFormed : Instr → Bool
  | .decrypt => true
  | .encrypt => true
  | .load => true
  | .keyexp => true
  | .ark r => decide (r.toNat ≤ 10)
  | .invsub => true
  | .sub => true
  | .invshr => true
  | .shr => true
  | .invmix => true
  | .mix => true
  | .store => true
  | .invsbox => true
  | .sbox => true

end Sys2Proof
end

