-- ==== Sys2Proof/Decode.lean ====
section
/-! DEFINITION. Words of the three formats, the decoder (total, rejecting by name), the encoder, the mnemonics.
Spec: `30_encoding.md` rules R80 to R93. -/

namespace Sys2Proof

/-- A word together with the place it comes from: "A decoder tells the format by where the word comes from, never by its
bits" (R80). -/
inductive Encoded
  /-- Format `C`: the bit on port `cmd_fwd` (R81). -/
  | c (fwd : BitVec 1)
  /-- Format `U`: a byte of the micro-program (R83). -/
  | u (word : BitVec 8)
  /-- Format `S`: the select bit of the substitution unit (R89). -/
  | s (forward : BitVec 1)
  deriving DecidableEq, Repr

/-- What the decoder answers when it rejects. -/
inductive DecodeError
  /-- `ILLEGAL`: a format `U` byte outside the opcode map (R90). -/
  | illegalMicroOp (word : BitVec 8)
  deriving DecidableEq, Repr

/-- `kind`, bits 7:5 of a format `U` word (R83). -/
def kindField (u : BitVec 8) : BitVec 3 := u.extractLsb' 5 3

/-- `fwd`, bit 4 of a format `U` word (R83). -/
def fwdField (u : BitVec 8) : BitVec 1 := u.extractLsb' 4 1

/-- `rk`, bits 3:0 of a format `U` word (R83). -/
def rkField (u : BitVec 8) : BitVec 4 := u.extractLsb' 0 4

/-- Format `C`: 1 is `ENCRYPT`, 0 is `DECRYPT`; no illegal value (R82). -/
def decodeC (fwd : BitVec 1) : Instr := if fwd = 1#1 then .encrypt else .decrypt

/-- Format `S`: 1 is `SBOX`, 0 is `INVSBOX`; no illegal value (R89). -/
def decodeS (forward : BitVec 1) : Instr := if forward = 1#1 then .sbox else .invsbox

/-- The kinds without a direction need `fwd = 0` and `rk = 0` (R83). -/
def plainForm (u : BitVec 8) (i : Instr) : Except DecodeError Instr :=
  if fwdField u = 0#1 ∧ rkField u = 0#4 then .ok i else .error (.illegalMicroOp u)

/-- The kinds with two forms take the direction from `fwd` and need `rk = 0` (R83, R85). -/
def directedForm (u : BitVec 8) (forward inverse : Instr) : Except DecodeError Instr :=
  if rkField u = 0#4 then .ok (if fwdField u = 1#1 then forward else inverse) else .error (.illegalMicroOp u)

/-- `ARK` needs `fwd = 0` and `rk` in 0..10 (R86, R88). -/
def arkForm (u : BitVec 8) : Except DecodeError Instr :=
  if fwdField u = 0#1 ∧ (rkField u).toNat ≤ 10 then .ok (.ark (rkField u)) else .error (.illegalMicroOp u)

/-- Format `U`: the families of the `kind` field (R84); every other word is illegal (R90). -/
def decodeU (u : BitVec 8) : Except DecodeError Instr :=
  match (kindField u).toNat with
  | 1 => plainForm u .load
  | 2 => plainForm u .keyexp
  | 3 => arkForm u
  | 4 => directedForm u .sub .invsub
  | 5 => directedForm u .shr .invshr
  | 6 => directedForm u .mix .invmix
  | 7 => plainForm u .store
  | _ => .error (.illegalMicroOp u)

/-- The decoder: each format by its own table. -/
def decode : Encoded → Except DecodeError Instr
  | .c fwd => .ok (decodeC fwd)
  | .u word => decodeU word
  | .s forward => .ok (decodeS forward)

/-- A format `U` word from its three fields (R83). -/
def wordU (kind : BitVec 3) (fwd : BitVec 1) (rk : BitVec 4) : BitVec 8 := (kind ++ fwd) ++ rk

/-- The encoder, from the opcode map (R82, R88, R89). -/
def encode : Instr → Encoded
  | .decrypt => .c 0#1
  | .encrypt => .c 1#1
  | .load => .u (wordU 0b001#3 0#1 0#4)
  | .keyexp => .u (wordU 0b010#3 0#1 0#4)
  | .ark r => .u (wordU 0b011#3 0#1 r)
  | .invsub => .u (wordU 0b100#3 0#1 0#4)
  | .sub => .u (wordU 0b100#3 1#1 0#4)
  | .invshr => .u (wordU 0b101#3 0#1 0#4)
  | .shr => .u (wordU 0b101#3 1#1 0#4)
  | .invmix => .u (wordU 0b110#3 0#1 0#4)
  | .mix => .u (wordU 0b110#3 1#1 0#4)
  | .store => .u (wordU 0b111#3 0#1 0#4)
  | .invsbox => .s 0#1
  | .sbox => .s 1#1

/-- The host's question: which instruction the decoder reads from a row of `spec/opcode_table.json`. The table's numbers do
not say where a word comes from, so the format is chosen here: a legal micro-operation word is format `U`; 0 and 1, which
format `U` rejects, are the one-bit command rows padded to a byte. The one-bit rows of format `S` have the same two
numbers and are reached by `decode (.s _)` only (assumption log 8). -/
def decodeTableWord (nbits w : Nat) : Option Instr :=
  if nbits ≤ 8 ∧ w < 256 then
    match decodeU (BitVec.ofNat 8 w) with
    | .ok i => some i
    | .error _ => if w < 2 then some (decodeC (BitVec.ofNat 1 w)) else none
  else none

/-- The mnemonic of an instruction (R88, R89, R92). -/
def Instr.mnemonic : Instr → String
  | .decrypt => "DECRYPT"
  | .encrypt => "ENCRYPT"
  | .load => "LOAD"
  | .keyexp => "KEYEXP"
  | .ark _ => "ARK"
  | .invsub => "INVSUB"
  | .sub => "SUB"
  | .invshr => "INVSHR"
  | .shr => "SHR"
  | .invmix => "INVMIX"
  | .mix => "MIX"
  | .store => "STORE"
  | .invsbox => "INVSBOX"
  | .sbox => "SBOX"

/-- The text of an instruction in a listing: `ARK` is followed by its decimal round index (R93). -/
def Instr.listing (i : Instr) : String :=
  match i with
  | .ark r => "ARK " ++ toString r.toNat
  | other => other.mnemonic

end Sys2Proof
end

