-- ==== Sys2Proof/Machine/MicroProgram.lean ====
section
/-! DEFINITION. The constant space `MPROG`, the fetch, the round counter `RND`, the pseudo-instructions.
Spec: `44_cipher_orchestrator.md` rules R163, R164, `10_state.md` rules R26, R28, `30_encoding.md` rule R94. -/

namespace Sys2Proof.Machine

/-- `MPROG[1][0..42]`, the encrypt micro-program "as bytes" (R163). -/
def mprogEncrypt : List Byte :=
  [0x20, 0x40, 0x60] ++
  [0x90, 0xb0, 0xd0, 0x61] ++ [0x90, 0xb0, 0xd0, 0x62] ++ [0x90, 0xb0, 0xd0, 0x63] ++
  [0x90, 0xb0, 0xd0, 0x64] ++ [0x90, 0xb0, 0xd0, 0x65] ++ [0x90, 0xb0, 0xd0, 0x66] ++
  [0x90, 0xb0, 0xd0, 0x67] ++ [0x90, 0xb0, 0xd0, 0x68] ++ [0x90, 0xb0, 0xd0, 0x69] ++
  [0x90, 0xb0, 0x6a] ++ [0xe0]

/-- `MPROG[0][0..42]`, the decrypt micro-program "as bytes" (R164). -/
def mprogDecrypt : List Byte :=
  [0x20, 0x40, 0x6a] ++
  [0xa0, 0x80, 0x69, 0xc0] ++ [0xa0, 0x80, 0x68, 0xc0] ++ [0xa0, 0x80, 0x67, 0xc0] ++
  [0xa0, 0x80, 0x66, 0xc0] ++ [0xa0, 0x80, 0x65, 0xc0] ++ [0xa0, 0x80, 0x64, 0xc0] ++
  [0xa0, 0x80, 0x63, 0xc0] ++ [0xa0, 0x80, 0x62, 0xc0] ++ [0xa0, 0x80, 0x61, 0xc0] ++
  [0xa0, 0x80, 0x60] ++ [0xe0]

/-- `MPROG[d]`. -/
def mprog (d : Bool) : List Byte := if d then mprogEncrypt else mprogDecrypt

/-- `MemRead(MPROG, (d, upc), 1)`; indices 43..63 have no entry (R26, U11 of `93_implementation_defined.md`). -/
def mprogWord (d : Bool) (upc : BitVec 6) : Option Byte := (mprog d)[upc.toNat]?

/-- The micro-operation at index `n` of micro-program `d`: the word there, decoded. -/
def uopAt (d : Bool) (n : Nat) : Option (Except DecodeError Instr) := (mprog d)[n]?.map decodeU

/-- The fetch of the engine's step, `MPROG[FWD][UPC]` (R162). -/
def fetch (s : State) : Except Fault Byte :=
  match s.fwd with
  | none => .error .readNoValue
  | some d =>
    match mprogWord d s.upc with
    | none => .error .fetchOutOfRange
    | some u => .ok u

/-- The round counter `RND`, no register of its own but a function of `FWD` and `UPC` (R28). -/
def rnd (d : Bool) (upc : Nat) : Nat :=
  if d then (if upc ≤ 2 then 0 else (upc - 3) / 4 + 1)
  else (if upc ≤ 2 then 10 else if upc ≤ 38 then 9 - (upc - 3) / 4 else 0)

/-- The pseudo-instructions (R94). -/
inductive Pseudo
  /-- `ROUND r`; legal for `r` in 1..9 only, see `expandPseudo`. -/
  | round (r : BitVec 4)
  /-- `FINALROUND`. -/
  | finalRound
  /-- `INVROUND r`; legal for `r` in 1..9 only, see `expandPseudo`. -/
  | invRound (r : BitVec 4)
  /-- `INVFINALROUND`. -/
  | invFinalRound
  deriving DecidableEq, Repr

/-- The rounds `ROUND r` and `INVROUND r` exist for: `r` in 1..9 (R94). -/
def isMiddleRound (r : BitVec 4) : Bool := decide (1 ≤ r.toNat) && decide (r.toNat ≤ 9)

/-- The micro-operations a pseudo-instruction stands for, in order (R94). `ROUND r` and `INVROUND r` with `r` outside 1..9 are
no pseudo-instructions and expand to nothing at all, not even to an empty sequence (assumption log 22). -/
def expandPseudo : Pseudo → Option (List Instr)
  | .round r => if isMiddleRound r then some [.sub, .shr, .mix, .ark r] else none
  | .finalRound => some [.sub, .shr, .ark 10]
  | .invRound r => if isMiddleRound r then some [.invshr, .invsub, .ark r, .invmix] else none
  | .invFinalRound => some [.invshr, .invsub, .ark 0]

/-- The micro-operations a sequence of pseudo-instructions stands for; `none` where one of them is none. -/
def expandAll : List Pseudo → Option (List Instr)
  | [] => some []
  | p :: ps =>
    match expandPseudo p, expandAll ps with
    | some is, some js => some (is ++ js)
    | _, _ => none

/-- The lower-case hexadecimal digit of a nibble, as a one-character string. -/
def hexDigitText (v : Nat) : String :=
  if v < 10 then toString v
  else if v = 10 then "a" else if v = 11 then "b" else if v = 12 then "c"
  else if v = 13 then "d" else if v = 14 then "e" else "f"

/-- One line of a micro-program listing: index, word, micro-operation, as in `06: 61  ARK 1` (R93). -/
def listingLine (d : Bool) (upc : BitVec 6) : Option String :=
  match mprogWord d upc with
  | none => none
  | some u =>
    match decodeU u with
    | .error _ => none
    | .ok i =>
      some (toString (upc.toNat / 10) ++ toString (upc.toNat % 10) ++ ": " ++ hexDigitText (u.toNat / 16) ++
        hexDigitText (u.toNat % 16) ++ "  " ++ i.listing)

end Sys2Proof.Machine
end

