-- ==== Sys2Proof/Machine/Sequencer.lean ====
section
/-! DEFINITION. The sequencer: executing a fetched word, accepting a command, and where a table word is placed for the next
step. Spec: `44_cipher_orchestrator.md` rules R162 and R174, `30_encoding.md` rule R90. -/

namespace Sys2Proof.Machine

/-- Execute an arbitrary format `U` word: decode it and run its meaning; an illegal word is the fault `IllegalMicroOp`
(R90, R219 a). -/
def runWord (u : Byte) (s : State) : Host.Outcome State Fault Refusal :=
  match decodeU u with
  | .ok i => exec i s
  | .error _ => .fault .illegalMicroOp

/-- The engine's step while `BUSY = 1`: fetch, decode, execute (R162). -/
def engineStep (s : State) : Host.Outcome State Fault Refusal :=
  match fetch s with
  | .ok u => runWord u s
  | .error f => .fault f

/-- The command on the port: the bit `cmd_fwd` (R82). -/
def portCommand (s : State) : Instr := decodeC (BitVec.ofBool s.ports.cmdFwd)

/-- The step while `BUSY = 0`: an acceptance if a command is offered (R174); otherwise the engine has no step of its own and
nothing changes (R162, assumption log 4). -/
def idleStep (s : State) : Host.Outcome State Fault Refusal :=
  if s.ports.cmdValid then exec (portCommand s) s else .next s

/-- The place of a word in a micro-program, from index 1 on (index 0 is the acceptance step's). -/
def placeIn (d : Bool) (u : Byte) : Option (Bool × BitVec 6) :=
  ((List.range 43).find? fun n => decide (1 ≤ n) && decide ((mprog d)[n]? = some u)).map fun n => (d, BitVec.ofNat 6 n)

/-- The place of a word in either micro-program, the one of direction `d` first. -/
def findPlace (d : Bool) (u : Byte) : Option (Bool × BitVec 6) := (placeIn d u).or (placeIn (!d) u)

/-- An idle engine as the acceptance of the command on its ports leaves it, with the schedule expanded when the sequencer is
to stand behind `KEYEXP`; an engine with an operation in progress as it is (assumption log 9). -/
def operationFor (d : Bool) (upc : BitVec 6) (s : State) : State :=
  if s.busy then s
  else if 2 ≤ upc.toNat then (loadFrom d s).writeW (expandKey (unpack s.ports.cmdKey))
  else loadFrom d s

/-- Put the sequencer at the place of a micro-operation word, no reset requested. -/
def placeWord (u : Byte) (s : State) : State :=
  match findPlace (s.fwd.getD true) u with
  | some (d, upc) => (((operationFor d upc s).setFwd (some d)).setUpc upc).drive { s.ports with resetReq := false }
  | none => s

/-- Offer a command on the ports of an engine that is ready, no reset requested. -/
def placeOffer (d : Bool) (s : State) : State :=
  (s.setFlags false s.done).drive { s.ports with cmdValid := true, cmdFwd := d, resetReq := false }

end Sys2Proof.Machine
end

