-- ==== Sys2Proof/Machine/Step.lean ====
section
/-! DEFINITION. The step of the machine, and the placing of a table word before the next step.
Spec: `44_cipher_orchestrator.md` rules R162, R174, R181, `70_reset_and_hazards.md` rule R240. -/

namespace Sys2Proof.Machine

/-- One step: a requested reset happens and wins over everything else (R240, R241); otherwise a busy engine executes the
micro-operation at `MPROG[FWD][UPC]` (R162); otherwise an offered command is accepted (R174). -/
def step (s : State) : Host.Outcome State Fault Refusal :=
  if s.ports.resetReq then .next (resetEvent s)
  else if s.busy then engineStep s
  else idleStep s

/-- `s` such that the very next step runs the instruction of a table word. `MPROG` is a constant (R38), so a micro-operation
word is not stored: the sequencer is put where `MPROG` holds it. `LOAD` is the acceptance step (R165): a command is
offered, of the direction the port already shows. The one-bit command words are offered on the port. -/
def State.withFetchWord (s : State) (nbits w : Nat) : State :=
  match decodeTableWord nbits w with
  | some .encrypt => placeOffer true s
  | some .decrypt => placeOffer false s
  | some .load => placeOffer s.ports.cmdFwd s
  | _ => placeWord (BitVec.ofNat 8 w) s

end Sys2Proof.Machine
end

