-- ==== Sys2Proof/Machine/HostInterface.lean ====
section
/-! DEFINITION. The host's side of the ports: what it observes, and a run in which it drives the ports anew before every step.
Spec: `10_state.md` rule R37, `44_cipher_orchestrator.md` rule R181, `70_reset_and_hazards.md` rules R247 to R250. -/

namespace Sys2Proof.Machine

/-- Everything a host can see of an engine (R37); `outBlock` is `none` while the port has no value (R35). -/
structure Observation where
  cmdReady : Bool
  busy : Bool
  done : Bool
  outBlock : Option Bus
  deriving DecidableEq, Repr

/-- The host reads the four output ports, without effect (R56, R181 b). -/
def observe (s : State) : Observation :=
  { cmdReady := cmdReady s, busy := busyPort s, done := donePort s,
    outBlock := match readOutBlock s with
      | .ok v => some v
      | .error _ => none }

/-- Run one step for every element of a list, the host driving the input ports to that element before the step. Offering,
changing and withdrawing a command and requesting reset are all such port values (R181 a, c). -/
def runDriven : List Ports → State → Host.Outcome State Fault Refusal
  | [], s => .next s
  | p :: ps, s =>
    match step (s.drive p) with
    | .next t => runDriven ps t
    | .fault f => .fault f
    | .refused r => .refused r

/-- An operation has ended (R181): its `STORE` has executed. -/
def operationEnded (s : State) : Bool := !s.busy && s.done && decide (s.upc = 0#6)

/-- The engine is quiescent (R181). -/
def quiescent (s : State) : Bool := !s.busy

end Sys2Proof.Machine
end

