-- ==== Sys2Proof/Machine/Adapter.lean ====
section
/-! DEFINITION. The host-interface adapter: hexadecimal strings in front of the binary ports, with the two validation errors.
Spec: `45_hex_interface.md` rules R190 to R200, `60_exceptions.md` rules R210 to R216. A string is a list of characters
(R190). The adapter keeps nothing between calls (R40). -/

namespace Sys2Proof.Machine

/-! ## Text form of a block -/

/-- `hexval(ch)`: the value of a hexadecimal digit of either case; `none` for every other character (R191). -/
def hexval (ch : Char) : Option Nibble :=
  match ch with
  | '0' => some 0#4
  | '1' => some 1#4
  | '2' => some 2#4
  | '3' => some 3#4
  | '4' => some 4#4
  | '5' => some 5#4
  | '6' => some 6#4
  | '7' => some 7#4
  | '8' => some 8#4
  | '9' => some 9#4
  | 'a' => some 10#4
  | 'b' => some 11#4
  | 'c' => some 12#4
  | 'd' => some 13#4
  | 'e' => some 14#4
  | 'f' => some 15#4
  | 'A' => some 10#4
  | 'B' => some 11#4
  | 'C' => some 12#4
  | 'D' => some 13#4
  | 'E' => some 14#4
  | 'F' => some 15#4
  | _ => none

/-- `digit(v)`: the character at position `v` of the sixteen lower-case digits (R193). -/
def hexDigit (v : Nibble) : Char :=
  #v['0', '1', '2', '3', '4', '5', '6', '7', '8', '9', 'a', 'b', 'c', 'd', 'e', 'f'][v.toNat]'v.isLt

/-- Byte `i` of a string: characters `2i` (high nibble) and `2i+1` (low nibble) (R192). -/
def hexByte (s : List Char) (i : Nat) : Option Byte :=
  match (s[2 * i]?).bind hexval, (s[2 * i + 1]?).bind hexval with
  | some h, some l => some (h ++ l)
  | _, _ => none

/-- `hex_decode_block(s)`, defined for 32 legal characters (R192). -/
def hexDecodeBlock (s : List Char) : Option Block :=
  if s.length = 32 then readCells (Vector.ofFn fun i => hexByte s i) else none

/-- The two characters of a byte, high nibble first (R193). -/
def hexOfByte (b : Byte) : List Char := [hexDigit (b.extractLsb' 4 4), hexDigit (b.extractLsb' 0 4)]

/-- `hex_encode_block(B)` (R193). -/
def hexEncodeBlock (b : Block) : List Char := b.toList.flatMap hexOfByte

/-- A command in a listing: mnemonic, block and key as 32-digit strings separated by a comma (R93). -/
def commandLine (d : Bool) (b k : Block) : String :=
  (decodeC (BitVec.ofBool d)).mnemonic ++ " " ++ String.ofList (hexEncodeBlock b) ++ ", " ++ String.ofList (hexEncodeBlock k)

/-! ## Validation -/

/-- The two errors of the adapter; an error carries its kind only (R211 to R213). -/
inductive AdapterError
  /-- A string has a length other than 32 characters (R212). -/
  | invalidInputLength
  /-- A character has no `hexval` (R213). -/
  | invalidHexCharacter
  deriving DecidableEq, Repr

/-- The 2-bit code of a call's error: 0 none, 1 and 2 the two kinds, 3 never produced (R211). -/
def errorCode : Option AdapterError → BitVec 2
  | none => 0#2
  | some .invalidInputLength => 1#2
  | some .invalidHexCharacter => 2#2

/-- Every character is a hexadecimal digit. -/
def allHex (s : List Char) : Bool := s.all fun ch => (hexval ch).isSome

/-- `validate(text, key)`: length of the text, length of the key, characters of the text, characters of the key; the first
check that fails decides (R195, R214). -/
def validate (text key : List Char) : Except AdapterError Unit :=
  if text.length ≠ 32 then .error .invalidInputLength
  else if key.length ≠ 32 then .error .invalidInputLength
  else if allHex text = false then .error .invalidHexCharacter
  else if allHex key = false then .error .invalidHexCharacter
  else .ok ()

/-! ## The two operations -/

/-- How a call of the adapter ends. -/
inductive CallOutcome
  /-- The result string, and the engine after it. -/
  | result (text : List Char) (s : State)
  /-- An error and no string; the engine is as before the call (R215). -/
  | error (e : AdapterError) (s : State)
  /-- The engine faulted (unreachable from reset). -/
  | fault (f : Fault)
  /-- The engine refused (nothing refuses). -/
  | refused (r : Refusal)
  /-- The call has not ended within the steps it was followed for: it still waits for a level or for its offer to be
  accepted (R200). -/
  | waiting (s : State)
  deriving DecidableEq, Repr

/-- One engine step, then `k`. -/
def stepThen (s : State) (k : State → CallOutcome) : CallOutcome :=
  match step s with
  | .next t => k t
  | .fault f => .fault f
  | .refused r => .refused r

/-- The adapter offers no command, in a step in which the reset input is `r`: it drops `cmd_valid` and leaves `cmd_fwd`,
`cmd_block` and `cmd_key` as it drove them. DESIGN CHOICE: the spec leaves it to the host what stands on the operand ports
after acceptance (R33, R250, R254; assumption log 19). -/
def withdraw (r : Bool) (s : State) : State := s.drive { s.ports with cmdValid := false, resetReq := r }

/-- The adapter offers a command with a block and a key, in a step in which the reset input is `r`. -/
def offer (d : Bool) (b k : Block) (r : Bool) (s : State) : State :=
  s.drive { cmdValid := true, cmdFwd := d, cmdBlock := pack b, cmdKey := pack k, resetReq := r }

/-- What a call goes on with: the reset levels still to come, one for each further step, and the engine. -/
abbrev Continuation := List Bool → State → CallOutcome

/-- Wait until a status port shows 1, then `k` (R196). -/
def waitThen (p : State → Bool) (k : Continuation) : Continuation
  | [], s => if p s then k [] s else .waiting s
  | r :: rs, s => if p s then k (r :: rs) s else stepThen (withdraw r s) (waitThen p k rs)

/-- Offer a command until it is accepted, then `k` (R196). The adapter sees the acceptance by `busy = 1` after the step; a
reset that takes a step of the offer leaves `busy = 0`, and the offer stays up (assumption log 21). -/
def offerThen (d : Bool) (b key : Block) (k : Continuation) : Continuation
  | [], s => .waiting s
  | r :: rs, s => stepThen (offer d b key r s) fun t => if busyPort t then k rs t else offerThen d b key k rs t

/-- Read the result and end the call (R196). -/
def readResult : Continuation := fun _ s =>
  match readOutBlock s with
  | .ok v => .result (hexEncodeBlock (unpack v)) s
  | .error f => .fault f

/-- One command of the adapter (R196): wait for `cmd_ready`, offer until accepted, wait for `done`, read the result. There is
no timeout and no retry (R200): a call whose operation a reset abandons (R241) goes on waiting for `done`. -/
def runCommand (d : Bool) (b key : Block) : Continuation :=
  waitThen cmdReady (offerThen d b key (waitThen donePort readResult))

/-- A call of the adapter, direction 1 or 0: nothing reaches the engine when validation fails (R198). The list gives the level
of the reset input in each step of the call, since a reset may be requested at any time (R240). -/
def adapterCall (d : Bool) (text key : List Char) (resets : List Bool) (s : State) : CallOutcome :=
  match validate text key with
  | .error e => .error e s
  | .ok () =>
    match hexDecodeBlock text, hexDecodeBlock key with
    | some b, some k => runCommand d b k resets s
    | _, _ => .error .invalidHexCharacter s

/-- `encrypt(plaintext_hex, key_hex)` (R196). -/
def adapterEncrypt (text key : List Char) (resets : List Bool) (s : State) : CallOutcome := adapterCall true text key resets s

/-- `decrypt(ciphertext_hex, key_hex)` (R197). -/
def adapterDecrypt (text key : List Char) (resets : List Bool) (s : State) : CallOutcome := adapterCall false text key resets s

end Sys2Proof.Machine
end

