-- ==== Sys2Proof/Safety.lean ====
section
/-! DEFINITION. What claims speak of: what a register holds, what a micro-operation leaves alone, the invariant of the machine.
Spec: `70_reset_and_hazards.md` rule R246, `10_state.md` rules R20 to R31 and R42. -/

namespace Sys2Proof.Machine

/-- The next state of an outcome, if it has one. -/
def nextOf (o : Host.Outcome State Fault Refusal) : Option State :=
  match o with
  | .next s => some s
  | .fault _ => none
  | .refused _ => none

/-- The fault of an outcome, if it is one. -/
def faultOf (o : Host.Outcome State Fault Refusal) : Option Fault :=
  match o with
  | .next _ => none
  | .fault f => some f
  | .refused _ => none

/-- Every cell of a register holds the byte of a block at the same index. -/
abbrev Holds (r : BlockReg) (b : Block) : Prop := ∀ i : Fin 16, r[i] = some b[i]

/-- Every cell of a register holds `NOVALUE`. -/
abbrev HoldsNothing (r : BlockReg) : Prop := ∀ i : Fin 16, r[i] = none

/-- Every cell of `W` holds the byte of a schedule at the same word and byte index. -/
abbrev ScheduleIn (m : Memory) (ws : Schedule) : Prop :=
  ∀ (i : Fin 44) (j : Fin 4), m.read (wAddr i j) = some ws[i][j]

/-- `KEY` holds a key, and when `expanded`, `W` holds the expansion of that key. -/
def KeyAndSchedule (s : State) (expanded : Bool) : Bool :=
  match readCells s.key with
  | some k => !expanded || decide (ScheduleIn s.w (expandKey k))
  | none => false

/-- The state of an operation in progress (R246): one of the indices 1..42, a direction, a State, a Key, no result, and from
index 2 on, behind `KEYEXP`, the schedule of the Key in `W`. -/
abbrev State.InOperation (s : State) : Prop :=
  s.done = false ∧ 1 ≤ s.upc.toNat ∧ s.upc.toNat ≤ 42 ∧ s.fwd.isSome = true ∧ (readCells s.st).isSome = true ∧
    KeyAndSchedule s (decide (2 ≤ s.upc.toNat)) = true ∧ (s.upc.toNat = 1 → s.w = []) ∧ HoldsNothing s.out

/-- The state between operations (R26, R43, R175): `UPC` is 0, nothing of an operation is left, and `OUT` holds a result
exactly when `DONE` is 1. -/
abbrev State.Idle (s : State) : Prop :=
  s.upc = 0#6 ∧ HoldsNothing s.st ∧ HoldsNothing s.key ∧ s.w = [] ∧
    (if s.done = true then (readCells s.out).isSome = true else HoldsNothing s.out)

/-- The invariant of the machine: the memory is in canonical form, and the engine is in an operation or between operations.
It says nothing of the input ports, which the host may drive to anything. -/
abbrev State.Inv (s : State) : Prop :=
  s.w.wf = true ∧ (if s.busy = true then s.InOperation else s.Idle)

/-- Everything but `ST` and `UPC` is as before: the frame of the seven round transformations (R42, R156). -/
abbrev OnlyStAndUpc (s t : State) : Prop :=
  t.key = s.key ∧ (∀ a : Nat, t.w.read a = s.w.read a) ∧ t.out = s.out ∧ t.fwd = s.fwd ∧ t.busy = s.busy ∧
    t.done = s.done ∧ t.ports = s.ports ∧ t.subUnit = s.subUnit

/-- What acceptance with direction `d` leaves (R165): the three operand ports are latched, `W` and `OUT` hold nothing, the
flags are (1,0), `UPC` is 1; the ports and the substitution unit are as before. -/
abbrev LoadedFrom (d : Bool) (s t : State) : Prop :=
  t.fwd = some d ∧ (∀ i : Fin 16, t.st[i] = some (s.ports.cmdBlock.extractLsb' (120 - 8 * i.val) 8)) ∧
    (∀ i : Fin 16, t.key[i] = some (s.ports.cmdKey.extractLsb' (120 - 8 * i.val) 8)) ∧
    (∀ a : Nat, t.w.read a = none) ∧ HoldsNothing t.out ∧ t.busy = true ∧ t.done = false ∧ t.upc = 1#6 ∧
    t.ports = s.ports ∧ t.subUnit = s.subUnit

/-- The registers of R20 are the same: two states may differ only in the input ports and the substitution unit. -/
abbrev SameRegisters (s t : State) : Prop :=
  s.st = t.st ∧ s.key = t.key ∧ s.w = t.w ∧ s.out = t.out ∧ s.fwd = t.fwd ∧ s.upc = t.upc ∧ s.busy = t.busy ∧
    s.done = t.done

/-- The control state is the same: `FWD`, `UPC`, `BUSY`, `DONE` (R172, `90_conflicts.md` C6). -/
abbrev SameControl (s t : State) : Prop :=
  s.fwd = t.fwd ∧ s.upc = t.upc ∧ s.busy = t.busy ∧ s.done = t.done

end Sys2Proof.Machine
end

