-- ==== Sys2Proof/Certificates/Slice0/Obligations.lean ====
section
/-! DEFINITION. The statements of this row, in the order of OBLIGATIONS.json. -/

open Sys2Proof Sys2Proof.Machine

/-! ## Encoding -/

/-- O1 (`30_encoding.md` sections 1 to 4). Decoding an encoded legal instruction gives it back, and every word that decodes is
the encoding of a legal instruction: each word has one meaning, in each of the three formats. -/
def Obligations.DecodeInvertsEncode : Prop :=
  (∀ i : Instr, i.wellFormed = true → decode (encode i) = .ok i) ∧
  (∀ (e : Encoded) (i : Instr), decode e = .ok i → i.wellFormed = true ∧ encode i = e)

/-- O2 (`30_encoding.md` section 3, `95_test_vectors.md` V60, V61). A word of each of the 14 rows, written out from the opcode
map, decodes to the instruction it stands for, and the first word behind `ARK 10` is illegal. -/
def Obligations.OpcodeMapWordsDecode : Prop :=
  decode (.c 0#1) = .ok .decrypt ∧ decode (.c 1#1) = .ok .encrypt ∧ decode (.u 0b00100000#8) = .ok .load ∧
  decode (.u 0b01000000#8) = .ok .keyexp ∧ decode (.u 0b01100101#8) = .ok (.ark 5#4) ∧
  decode (.u 0b01101010#8) = .ok (.ark 10#4) ∧ decode (.u 0b10000000#8) = .ok .invsub ∧
  decode (.u 0b10010000#8) = .ok .sub ∧ decode (.u 0b10100000#8) = .ok .invshr ∧
  decode (.u 0b10110000#8) = .ok .shr ∧ decode (.u 0b11000000#8) = .ok .invmix ∧ decode (.u 0b11010000#8) = .ok .mix ∧
  decode (.u 0b11100000#8) = .ok .store ∧ decode (.s 0#1) = .ok .invsbox ∧ decode (.s 1#1) = .ok .sbox ∧
  decode (.u 0b01101011#8) = .error (.illegalMicroOp 0b01101011#8)

/-- O3 (`30_encoding.md` section 4). The format `U` words outside the opcode map are illegal: exactly the ranges the section
lists, 236 words; to execute one is the fault `IllegalMicroOp` in every state, never a next state; `MPROG` holds none of
them; and no word executes as a no-operation: where executing one has a next state, that differs from the state before.
Every other word decodes to one of the ten micro-operations. -/
def Obligations.IllegalWordsFault : Prop :=
  (∀ u : Byte, decodeU u = .error (.illegalMicroOp u) ↔
    (u.toNat ≤ 0x1f ∨ (0x21 ≤ u.toNat ∧ u.toNat ≤ 0x3f) ∨ (0x41 ≤ u.toNat ∧ u.toNat ≤ 0x5f) ∨ 0xe1 ≤ u.toNat ∨
      (0x6b ≤ u.toNat ∧ u.toNat ≤ 0x6f) ∨ (0x70 ≤ u.toNat ∧ u.toNat ≤ 0x7f) ∨
      (0x81 ≤ u.toNat ∧ u.toNat ≤ 0x8f) ∨ (0x91 ≤ u.toNat ∧ u.toNat ≤ 0x9f) ∨ (0xa1 ≤ u.toNat ∧ u.toNat ≤ 0xaf) ∨
      (0xb1 ≤ u.toNat ∧ u.toNat ≤ 0xbf) ∨ (0xc1 ≤ u.toNat ∧ u.toNat ≤ 0xcf) ∨ (0xd1 ≤ u.toNat ∧ u.toNat ≤ 0xdf))) ∧
  (((List.range 256).filter fun n => (decodeU (BitVec.ofNat 8 n)).toOption.isNone).length = 236) ∧
  (∀ (u : Byte) (s : State), decodeU u = .error (.illegalMicroOp u) → runWord u s = .fault .illegalMicroOp) ∧
  (∀ (d : Bool) (n : BitVec 6) (u : Byte), mprogWord d n = some u → ∃ i : Instr, decodeU u = .ok i) ∧
  (∀ (u : Byte) (s t : State), runWord u s = .next t → t ≠ s) ∧
  (∀ (u : Byte) (i : Instr), decodeU u = .ok i → i ∉ [Instr.encrypt, .decrypt, .sbox, .invsbox])

/-- O4 (R163, R164). Both micro-programs, as bytes and in closed form. -/
def Obligations.MicroProgramsFollowThePipelines : Prop :=
  mprog true = [0x20, 0x40, 0x60, 0x90, 0xb0, 0xd0, 0x61, 0x90, 0xb0, 0xd0, 0x62, 0x90, 0xb0, 0xd0, 0x63] ++
    [0x90, 0xb0, 0xd0, 0x64, 0x90, 0xb0, 0xd0, 0x65, 0x90, 0xb0, 0xd0, 0x66] ++
    [0x90, 0xb0, 0xd0, 0x67, 0x90, 0xb0, 0xd0, 0x68, 0x90, 0xb0, 0xd0, 0x69] ++ [0x90, 0xb0, 0x6a, 0xe0] ∧
  mprog false = [0x20, 0x40, 0x6a, 0xa0, 0x80, 0x69, 0xc0, 0xa0, 0x80, 0x68, 0xc0, 0xa0, 0x80, 0x67, 0xc0] ++
    [0xa0, 0x80, 0x66, 0xc0, 0xa0, 0x80, 0x65, 0xc0, 0xa0, 0x80, 0x64, 0xc0] ++
    [0xa0, 0x80, 0x63, 0xc0, 0xa0, 0x80, 0x62, 0xc0, 0xa0, 0x80, 0x61, 0xc0] ++ [0xa0, 0x80, 0x60, 0xe0] ∧
  (∀ d : Bool, (mprog d).length = 43 ∧ uopAt d 0 = some (.ok .load) ∧ uopAt d 1 = some (.ok .keyexp) ∧
    uopAt d 42 = some (.ok .store)) ∧
  uopAt true 2 = some (.ok (.ark 0)) ∧
  (∀ r : Fin 10, 1 ≤ r.val → uopAt true (4 * r.val - 1) = some (.ok .sub) ∧ uopAt true (4 * r.val) = some (.ok .shr) ∧
    uopAt true (4 * r.val + 1) = some (.ok .mix) ∧ uopAt true (4 * r.val + 2) = some (.ok (.ark (BitVec.ofNat 4 r.val)))) ∧
  uopAt true 39 = some (.ok .sub) ∧ uopAt true 40 = some (.ok .shr) ∧ uopAt true 41 = some (.ok (.ark 10)) ∧
  uopAt false 2 = some (.ok (.ark 10)) ∧
  (∀ r : Fin 10, 1 ≤ r.val → uopAt false (3 + 4 * (9 - r.val)) = some (.ok .invshr) ∧
    uopAt false (3 + 4 * (9 - r.val) + 1) = some (.ok .invsub) ∧
    uopAt false (3 + 4 * (9 - r.val) + 2) = some (.ok (.ark (BitVec.ofNat 4 r.val))) ∧
    uopAt false (3 + 4 * (9 - r.val) + 3) = some (.ok .invmix)) ∧
  uopAt false 39 = some (.ok .invshr) ∧ uopAt false 40 = some (.ok .invsub) ∧ uopAt false 41 = some (.ok (.ark 0))

/-- O5 (`30_encoding.md` section 5). The pseudo-instructions expand as the section lists them, `ROUND r` and `INVROUND r` for
`r` in 1..9, and with them the two micro-programs read `LOAD; KEYEXP; ARK 0; ROUND 1; ...; ROUND 9; FINALROUND; STORE` and
`LOAD; KEYEXP; ARK 10; INVROUND 9; ...; INVROUND 1; INVFINALROUND; STORE`. That `ROUND r` and `INVROUND r` with any other
`r` have no expansion is the model's choice, assumption log 22. -/
def Obligations.PseudoInstructionsSpellThePrograms : Prop :=
  (∀ r : BitVec 4, 1 ≤ r.toNat → r.toNat ≤ 9 → expandPseudo (.round r) = some [.sub, .shr, .mix, .ark r] ∧
    expandPseudo (.invRound r) = some [.invshr, .invsub, .ark r, .invmix]) ∧
  (∀ r : BitVec 4, r.toNat = 0 ∨ 9 < r.toNat → expandPseudo (.round r) = none ∧ expandPseudo (.invRound r) = none) ∧
  expandPseudo .finalRound = some [.sub, .shr, .ark 10] ∧
  expandPseudo .invFinalRound = some [.invshr, .invsub, .ark 0] ∧
  (∃ is : List Instr, expandAll ([1, 2, 3, 4, 5, 6, 7, 8, 9].map Pseudo.round ++ [.finalRound]) = some is ∧
    (mprog true).map decodeU = ([Instr.load, .keyexp, .ark 0] ++ is ++ [Instr.store]).map .ok) ∧
  (∃ is : List Instr, expandAll ([9, 8, 7, 6, 5, 4, 3, 2, 1].map Pseudo.invRound ++ [.invFinalRound]) = some is ∧
    (mprog false).map decodeU = ([Instr.load, .keyexp, .ark 10] ++ is ++ [Instr.store]).map .ok)

/-! ## The step -/

/-- O6 (`44_cipher_orchestrator.md` section 2). While `BUSY = 1` and no reset is requested, a step is the meaning of the
micro-operation decoded from `MPROG[FWD][UPC]`, with nothing added around it. -/
def Obligations.BusyStepRunsTheFetchedInstruction : Prop :=
  ∀ (s : State) (d : Bool) (u : Byte) (i : Instr), s.ports.resetReq = false → s.busy = true → s.fwd = some d →
    mprogWord d s.upc = some u → decodeU u = .ok i → step s = exec i s

/-- O7 (`44_cipher_orchestrator.md` section 1). While `BUSY = 0` and no reset is requested, a step with an offered command is
the meaning of the command decoded from `cmd_fwd`, and that is the execution of `LOAD`. Without an offered command the
step changes nothing: that clause is the model's choice (assumption log 4). -/
def Obligations.ReadyStepRunsTheOfferedCommand : Prop :=
  ∀ s : State, s.ports.resetReq = false → s.busy = false →
    (s.ports.cmdValid = true →
      step s = exec (decodeC (BitVec.ofBool s.ports.cmdFwd)) s ∧ step s = exec .load s) ∧
    (s.ports.cmdValid = false → step s = .next s)

/-- O8 (`70_reset_and_hazards.md` section 1). The reset event, from every state: every data cell and `FWD` hold `NOVALUE`,
`BUSY`, `DONE`, `UPC` are 0; after it `cmd_ready = 1`, `busy = 0`, `done = 0` and `out_block` has no value. The tables are
no part of the state. That a requested reset wins, also over a command offered to a ready engine, is assumption log 5; that
the model's own `subUnit` fields survive a reset is the model's choice, assumption logs 7 and 20. -/
def Obligations.ResetEventClearsTheEngine : Prop :=
  ∀ s : State, s.ports.resetReq = true → ∃ t : State, step s = .next t ∧
    HoldsNothing t.st ∧ HoldsNothing t.key ∧ (∀ a : Nat, t.w.read a = none) ∧ HoldsNothing t.out ∧ t.fwd = none ∧
    t.busy = false ∧ t.done = false ∧ t.upc = 0#6 ∧
    observe t = { cmdReady := true, busy := false, done := false, outBlock := none } ∧
    t.ports = s.ports ∧ t.subUnit = s.subUnit

/-- O9 (`70_reset_and_hazards.md` section 1). A reset abandons an operation in progress and discards a result: after it, as long as the host offers no
command, the engine stays idle with no result and nothing of the operation. And a result disappears in no other way
than by a reset or the acceptance of a command. That a command offered together with the reset is not accepted is
assumption log 5; that a step of the idle engine without a command changes nothing is the model's choice, assumption
log 4. -/
def Obligations.ResetAbandonsAndDiscards : Prop :=
  (∀ (s : State) (p : Ports) (ps : List Ports), p.resetReq = true → (∀ q ∈ ps, q.cmdValid = false) →
    ∃ t : State, runDriven (p :: ps) s = .next t ∧ t.busy = false ∧ t.done = false ∧ HoldsNothing t.st ∧
      HoldsNothing t.key ∧ (∀ a : Nat, t.w.read a = none) ∧ HoldsNothing t.out) ∧
  (∀ s t : State, step s = .next t → s.done = true → t.done = false → s.ports.resetReq = true ∨ accepting s = true)

/-- O10 (`10_state.md` section 8). The state after reset, every register at the value the spec states. -/
def Obligations.ResetStateIsAsStated : Prop :=
  HoldsNothing State.reset.st ∧ HoldsNothing State.reset.key ∧ (∀ a : Nat, State.reset.w.read a = none) ∧
  HoldsNothing State.reset.out ∧ State.reset.fwd = none ∧ State.reset.upc = 0#6 ∧ State.reset.busy = false ∧
  State.reset.done = false ∧ cmdReady State.reset = true ∧ busyPort State.reset = false ∧ donePort State.reset = false ∧
  readOutBlock State.reset = .error .readNoValue

/-! ## Commands, `LOAD`, `STORE` -/

/-- O11 (`44_cipher_orchestrator.md` section 1). `ENCRYPT` offered to a ready engine is accepted: it latches the ports as
`LOAD` does, with `FWD <- 1`. -/
def Obligations.EncryptIsAcceptedWhenReady : Prop :=
  ∀ s : State, s.ports.cmdValid = true → s.busy = false → ∃ t : State, exec .encrypt s = .next t ∧ LoadedFrom true s t

/-- O12 (`44_cipher_orchestrator.md` section 1). `DECRYPT` offered to a ready engine is accepted, with `FWD <- 0`. -/
def Obligations.DecryptIsAcceptedWhenReady : Prop :=
  ∀ s : State, s.ports.cmdValid = true → s.busy = false → ∃ t : State, exec .decrypt s = .next t ∧ LoadedFrom false s t

/-- O13 (`44_cipher_orchestrator.md` section 1). While no reset is requested (assumption log 5), a command is accepted in a step
with `cmd_valid = 1` and `cmd_ready = 1`, whether `DONE` is 0 or 1, and the acceptance step is the execution of `LOAD`;
without either of the two the command is not accepted and changes nothing (assumption log 10); a step of
a busy engine never accepts: it is no execution of `LOAD`, and `BUSY` is still 1 or the operation has ended; and a command
offered then has no effect on the operation: without it the step gives the same registers. -/
def Obligations.CommandsAreAcceptedOnlyWhenReady : Prop :=
  (∀ (s : State) (d : Bool), s.ports.cmdValid = true → cmdReady s = true → s.ports.cmdFwd = d →
    s.ports.resetReq = false → step s = exec (if d then .encrypt else .decrypt) s ∧ step s = exec .load s ∧
      ∃ t : State, step s = .next t ∧ LoadedFrom d s t) ∧
  (∀ s : State, s.ports.cmdValid = false ∨ cmdReady s = false →
    exec .encrypt s = .next s ∧ exec .decrypt s = .next s) ∧
  (∀ s t : State, s.ports.resetReq = false → s.busy = true → step s = .next t →
    fetch s ≠ .ok 0x20#8 ∧ (t.busy = true ∨ (t.busy = false ∧ t.done = true))) ∧
  (∀ (s t : State) (p : Ports), s.busy = true → p.resetReq = false → step (s.drive p) = .next t →
    step (s.drive { p with cmdValid := false }) = .next (t.drive { p with cmdValid := false }))

/-- O14 (R165). `LOAD`: word 0x20, at index 0 of both micro-programs and nowhere else; in the acceptance step it samples the
three operand ports, invalidates `W` and `OUT`, sets the flags to (1,0) and `UPC` to 1; in no other step has it a next
state; worked example. -/
def Obligations.LoadLatchesThePorts : Prop :=
  encode .load = .u 0x20#8 ∧ (∀ (d : Bool) (n : BitVec 6), mprogWord d n = some 0x20#8 ↔ n = 0#6) ∧
  (∀ s : State, s.busy = false → s.ports.cmdValid = true →
    ∃ t : State, exec .load s = .next t ∧ LoadedFrom s.ports.cmdFwd s t) ∧
  (∀ s t : State, exec .load s = .next t → s.busy = false ∧ s.ports.cmdValid = true) ∧
  (∀ s t : State, s.busy = false → s.ports.cmdValid = true →
    s.ports.cmdBlock = 0x00112233445566778899aabbccddeeff#128 → exec .load s = .next t →
    t.st[0] = some 0x00#8 ∧ t.st[1] = some 0x11#8 ∧ t.st[5] = some 0x55#8 ∧ t.st[1 + 4 * 1] = some 0x55#8 ∧
      t.st[3 + 4 * 3] = some 0xff#8 ∧ t.st[0 + 4 * 3] = some 0xcc#8)

/-- O15 (assumption log 6). `LOAD` outside an acceptance step, where the spec's precondition fails, stops with a fault of
its own: the model's choice. -/
def Obligations.LoadOutsideAcceptanceFaults : Prop :=
  ∀ s : State, s.busy = true ∨ s.ports.cmdValid = false → exec .load s = .fault .loadNotEnabled

/-- O16 (R175). `STORE`: word 0xE0, at index 42 of both micro-programs and nowhere else; it copies `ST` to `OUT`, invalidates
`ST`, `KEY` and `W`, sets the flags to (0,1) and `UPC` to 0, and leaves `FWD`; the ports then show the result. -/
def Obligations.StoreDeliversTheState : Prop :=
  encode .store = .u 0xe0#8 ∧ (∀ (d : Bool) (n : BitVec 6), mprogWord d n = some 0xe0#8 ↔ n = 42#6) ∧
  (∀ (s : State) (S : Block), Holds s.st S → ∃ (t : State) (v : Bus), exec .store s = .next t ∧ Holds t.out S ∧
    HoldsNothing t.st ∧ HoldsNothing t.key ∧ (∀ a : Nat, t.w.read a = none) ∧ t.busy = false ∧ t.done = true ∧
    t.upc = 0#6 ∧ t.fwd = s.fwd ∧ t.ports = s.ports ∧ t.subUnit = s.subUnit ∧
    observe t = { cmdReady := true, busy := false, done := true, outBlock := some v } ∧
    (∀ i : Fin 16, v.extractLsb' (120 - 8 * i.val) 8 = S[i])) ∧
  (∀ s t : State, Holds s.st (unpack 0x69c4e0d86a7b0430d8cdb78070b4c55a#128) → exec .store s = .next t →
    readOutBlock t = .ok 0x69c4e0d86a7b0430d8cdb78070b4c55a#128)

/-! ## Key schedule -/

/-- O17 (R130). `KEYEXP`: word 0x40, at index 1 of both micro-programs and nowhere else; it writes all 44 words with the
expansion of `KEY` and advances `UPC`; nothing else changes, and no byte outside the 176 of `W`. -/
def Obligations.KeyexpWritesTheSchedule : Prop :=
  encode .keyexp = .u 0x40#8 ∧ (∀ (d : Bool) (n : BitVec 6), mprogWord d n = some 0x40#8 ↔ n = 1#6) ∧
  (∀ (s : State) (K : Block), Holds s.key K → ∃ t : State, exec .keyexp s = .next t ∧
    (∀ (i : Fin 44) (j : Fin 4), t.w.read (wAddr i j) = some (expandKey K)[i][j]) ∧
    (∀ a : Nat, 176 ≤ a → t.w.read a = s.w.read a) ∧ t.upc = s.upc + 1#6 ∧
    t.st = s.st ∧ t.key = s.key ∧ t.out = s.out ∧ t.fwd = s.fwd ∧ t.busy = s.busy ∧ t.done = s.done ∧
    t.ports = s.ports ∧ t.subUnit = s.subUnit)

/-- O18 (R132, R133, R136). The schedule of a key, word by word: the four columns of the key, then
`W[i] = W[i-4] ^ temp`, with rotation, substitution and round constant when `i mod 4 = 0`; round keys are groups of four
words, and Round Key 0 is the key. -/
def Obligations.KeyExpansionRecurrence : Prop :=
  ∀ K : Block,
    (∀ c j : Fin 4, ((expandKey K)[c.val]'(by omega))[j] = K[j.val + 4 * c.val]'(by omega)) ∧
    (∀ (i : Nat) (h4 : 4 ≤ i) (h44 : i < 44) (j : Fin 4),
      (expandKey K)[i][j] = (expandKey K)[i - 4][j] ^^^
        (if i % 4 = 0 then
          substitute ((expandKey K)[i - 1][(j.val + 1) % 4]'(by omega)) true ^^^ (if j.val = 0 then rcon (i / 4) else 0#8)
        else (expandKey K)[i - 1][j])) ∧
    (∀ (r : Fin 11) (k : Fin 16),
      (roundKey (expandKey K) r)[k] = ((expandKey K)[4 * r.val + k.val / 4]'(by omega))[k.val % 4]'(by omega)) ∧
    roundKey (expandKey K) 0 = K

/-- O19 (`42_key_schedule.md` section 2, `95_test_vectors.md` V20). `rot_word` and `sub_word` by index, with the spec's worked examples, and the
last word of the schedule of the known-answer key. -/
def Obligations.WordHelpersByIndex : Prop :=
  (∀ (t : Word4) (j : Fin 4), (rotWord t)[j] = t[(j.val + 1) % 4]'(by omega)) ∧
  (∀ (t : Word4) (j : Fin 4), (subWord t)[j] = substitute t[j] true) ∧
  rotWord #v[0x0c, 0x0d, 0x0e, 0x0f] = #v[0x0d, 0x0e, 0x0f, 0x0c] ∧
  subWord #v[0x0d, 0x0e, 0x0f, 0x0c] = #v[0xd7, 0xab, 0x76, 0xfe] ∧
  keyTemp 4 #v[0x0c, 0x0d, 0x0e, 0x0f] = #v[0xd6, 0xab, 0x76, 0xfe] ∧
  keyTemp 40 #v[0xbe, 0x2c, 0x97, 0x4e] = #v[0x47, 0x88, 0x2f, 0xae] ∧
  (expandKey (unpack 0x000102030405060708090a0b0c0d0e0f))[43] = #v[0x4d, 0x2b, 0x30, 0xc5]

/-! ## Round transformations -/

/-- O20 (R140). `SUB`: word 0x90; every byte of `ST` is replaced through the forward box; nothing but `ST` and `UPC` changes;
the rule's corner cases and worked example. -/
def Obligations.SubSubstitutesEveryByte : Prop :=
  encode .sub = .u 0x90#8 ∧
  (∀ (s : State) (S : Block), Holds s.st S → ∃ t : State, exec .sub s = .next t ∧
    (∀ i : Fin 16, t.st[i] = some (substitute S[i] true)) ∧ t.upc = s.upc + 1#6 ∧ OnlyStAndUpc s t) ∧
  (∀ (S : Block) (i : Fin 16), (subBytes S true)[i] = substitute S[i] true ∧ (subBytes S true)[i] ≠ S[i]) ∧
  subBytes (Vector.replicate 16 0x00#8) true = Vector.replicate 16 0x63#8 ∧
  subBytes (unpack 0x00102030405060708090a0b0c0d0e0f0) true = unpack 0x63cab7040953d051cd60e0e7ba70e18c

/-- O21 (R141). `INVSUB`: word 0x80; every byte of `ST` is replaced through the inverse box. -/
def Obligations.InvsubSubstitutesEveryByte : Prop :=
  encode .invsub = .u 0x80#8 ∧
  (∀ (s : State) (S : Block), Holds s.st S → ∃ t : State, exec .invsub s = .next t ∧
    (∀ i : Fin 16, t.st[i] = some (substitute S[i] false)) ∧ t.upc = s.upc + 1#6 ∧ OnlyStAndUpc s t) ∧
  (∀ (S : Block) (i : Fin 16), (subBytes S false)[i] = substitute S[i] false) ∧
  subBytes (Vector.replicate 16 0x00#8) false = Vector.replicate 16 0x52#8 ∧
  subBytes (unpack 0x63cab7040953d051cd60e0e7ba70e18c) false = unpack 0x00102030405060708090a0b0c0d0e0f0

/-- O22 (R142). `SHR`: word 0xB0; row `r` of `ST` is rotated left by `r` positions; corner cases, flat form, worked example. -/
def Obligations.ShrRotatesRowsLeft : Prop :=
  encode .shr = .u 0xb0#8 ∧
  (∀ (s : State) (S : Block), Holds s.st S → ∃ t : State, exec .shr s = .next t ∧
    (∀ r c : Fin 4, t.st[r.val + 4 * c.val]'(by omega) = some (S[r.val + 4 * ((c.val + r.val) % 4)]'(by omega))) ∧
    t.upc = s.upc + 1#6 ∧ OnlyStAndUpc s t) ∧
  (∀ (S : Block) (r c : Fin 4), (shiftRows S true)[r.val + 4 * c.val]'(by omega) =
    S[r.val + 4 * ((c.val + r.val) % 4)]'(by omega)) ∧
  (∀ (S : Block) (c : Fin 4), (shiftRows S true)[4 * c.val]'(by omega) = S[4 * c.val]'(by omega) ∧
    (shiftRows S true)[2 + 4 * c.val]'(by omega) = (shiftRows S false)[2 + 4 * c.val]'(by omega)) ∧
  (∀ S : Block, (∀ r c : Fin 4, S[r.val + 4 * c.val]'(by omega) = S[r.val]'(by omega)) → shiftRows S true = S) ∧
  (∀ S : Block, shiftRows S true = #v[S[0], S[5], S[10], S[15], S[4], S[9], S[14], S[3], S[8], S[13], S[2], S[7], S[12],
    S[1], S[6], S[11]]) ∧
  shiftRows (unpack 0x63cab7040953d051cd60e0e7ba70e18c) true = unpack 0x6353e08c0960e104cd70b751bacad0e7

/-- O23 (R143). `INVSHR`: word 0xA0; row `r` of `ST` is rotated right by `r` positions. -/
def Obligations.InvshrRotatesRowsRight : Prop :=
  encode .invshr = .u 0xa0#8 ∧
  (∀ (s : State) (S : Block), Holds s.st S → ∃ t : State, exec .invshr s = .next t ∧
    (∀ r c : Fin 4, t.st[r.val + 4 * c.val]'(by omega) = some (S[r.val + 4 * ((c.val + 4 - r.val) % 4)]'(by omega))) ∧
    t.upc = s.upc + 1#6 ∧ OnlyStAndUpc s t) ∧
  (∀ (S : Block) (r c : Fin 4), (shiftRows S false)[r.val + 4 * c.val]'(by omega) =
    S[r.val + 4 * ((c.val + 4 - r.val) % 4)]'(by omega)) ∧
  (∀ (S : Block) (c : Fin 4), (shiftRows S false)[4 * c.val]'(by omega) = S[4 * c.val]'(by omega) ∧
    (shiftRows S false)[2 + 4 * c.val]'(by omega) = (shiftRows S true)[2 + 4 * c.val]'(by omega)) ∧
  (∀ S : Block, (∀ r c : Fin 4, S[r.val + 4 * c.val]'(by omega) = S[r.val]'(by omega)) → shiftRows S false = S) ∧
  (∀ S : Block, shiftRows S false = #v[S[0], S[13], S[10], S[7], S[4], S[1], S[14], S[11], S[8], S[5], S[2], S[15], S[12],
    S[9], S[6], S[3]]) ∧
  shiftRows (unpack 0x6353e08c0960e104cd70b751bacad0e7) false = unpack 0x63cab7040953d051cd60e0e7ba70e18c

/-- O24 (R146, R147). `MIX`: word 0xD0; each column of `ST` is multiplied by the forward matrix, whose rows are as the spec
lists them; zero columns and columns of four equal bytes are unchanged; worked examples. -/
def Obligations.MixMultipliesEveryColumn : Prop :=
  encode .mix = .u 0xd0#8 ∧
  mixc[0].toList = [0x02, 0x03, 0x01, 0x01] ∧ mixc[1].toList = [0x01, 0x02, 0x03, 0x01] ∧
  mixc[2].toList = [0x01, 0x01, 0x02, 0x03] ∧ mixc[3].toList = [0x03, 0x01, 0x01, 0x02] ∧
  (∀ (r : Nat) (h : r < 3) (j : Fin 4), mixc[r + 1][(j.val + 1) % 4]'(by omega) = mixc[r][j]) ∧
  (∀ (s : State) (S : Block), Holds s.st S → ∃ t : State, exec .mix s = .next t ∧
    (∀ r c : Fin 4, t.st[r.val + 4 * c.val]'(by omega) =
      some (gfMultiply mixc[r][0] (S[0 + 4 * c.val]'(by omega)) ^^^ gfMultiply mixc[r][1] (S[1 + 4 * c.val]'(by omega)) ^^^
        gfMultiply mixc[r][2] (S[2 + 4 * c.val]'(by omega)) ^^^ gfMultiply mixc[r][3] (S[3 + 4 * c.val]'(by omega)))) ∧
    t.upc = s.upc + 1#6 ∧ OnlyStAndUpc s t) ∧
  (∀ (S : Block) (c : Fin 4) (v : Byte), (∀ r : Fin 4, S[r.val + 4 * c.val]'(by omega) = v) →
    ∀ r : Fin 4, (mixColumns S true)[r.val + 4 * c.val]'(by omega) = v) ∧
  (∀ (S T : Block) (c : Fin 4), (∀ r : Fin 4, S[r.val + 4 * c.val]'(by omega) = T[r.val + 4 * c.val]'(by omega)) →
    ∀ r : Fin 4, (mixColumns S true)[r.val + 4 * c.val]'(by omega) = (mixColumns T true)[r.val + 4 * c.val]'(by omega)) ∧
  mixColumns (unpack 0x6353e08c0960e104cd70b751bacad0e7) true = unpack 0x5f72641557f5bc92f7be3b291db9f91a ∧
  mixColumns (unpack 0xdb135345000000000000000000000000) true = unpack 0x8e4da1bc000000000000000000000000

/-- O25 (R148, R149). `INVMIX`: word 0xC0; each column of `ST` is multiplied by the inverse matrix. -/
def Obligations.InvmixMultipliesEveryColumn : Prop :=
  encode .invmix = .u 0xc0#8 ∧
  invmixc[0].toList = [0x0e, 0x0b, 0x0d, 0x09] ∧ invmixc[1].toList = [0x09, 0x0e, 0x0b, 0x0d] ∧
  invmixc[2].toList = [0x0d, 0x09, 0x0e, 0x0b] ∧ invmixc[3].toList = [0x0b, 0x0d, 0x09, 0x0e] ∧
  (∀ (s : State) (S : Block), Holds s.st S → ∃ t : State, exec .invmix s = .next t ∧
    (∀ r c : Fin 4, t.st[r.val + 4 * c.val]'(by omega) =
      some (gfMultiply invmixc[r][0] (S[0 + 4 * c.val]'(by omega)) ^^^
        gfMultiply invmixc[r][1] (S[1 + 4 * c.val]'(by omega)) ^^^
        gfMultiply invmixc[r][2] (S[2 + 4 * c.val]'(by omega)) ^^^
        gfMultiply invmixc[r][3] (S[3 + 4 * c.val]'(by omega)))) ∧
    t.upc = s.upc + 1#6 ∧ OnlyStAndUpc s t) ∧
  (∀ (S : Block) (c : Fin 4) (v : Byte), (∀ r : Fin 4, S[r.val + 4 * c.val]'(by omega) = v) →
    ∀ r : Fin 4, (mixColumns S false)[r.val + 4 * c.val]'(by omega) = v) ∧
  (∀ (S T : Block) (c : Fin 4), (∀ r : Fin 4, S[r.val + 4 * c.val]'(by omega) = T[r.val + 4 * c.val]'(by omega)) →
    ∀ r : Fin 4, (mixColumns S false)[r.val + 4 * c.val]'(by omega) = (mixColumns T false)[r.val + 4 * c.val]'(by omega)) ∧
  mixColumns (unpack 0x5f72641557f5bc92f7be3b291db9f91a) false = unpack 0x6353e08c0960e104cd70b751bacad0e7 ∧
  mixColumns (unpack 0x8e4da1bc000000000000000000000000) false = unpack 0xdb135345000000000000000000000000

/-- O26 (R151). `ARK r`, `r` in 0..10: word `0x60 | r`; every byte of `ST` is XORed with the byte of Round Key `r` at the same
index, `W[4r + (i div 4)][i mod 4]`; corner cases and worked examples. -/
def Obligations.ArkXorsTheRoundKey : Prop :=
  (∀ r : BitVec 4, encode (.ark r) = .u (0x60#8 ||| r.setWidth 8)) ∧
  (∀ (s : State) (r : BitVec 4) (S K : Block), r.toNat ≤ 10 → Holds s.st S →
    (∀ i : Fin 16, s.w.read (wAddr (4 * r.toNat + i.val / 4) (i.val % 4)) = some K[i]) →
    ∃ t : State, exec (.ark r) s = .next t ∧ (∀ i : Fin 16, t.st[i] = some (S[i] ^^^ K[i])) ∧ t.upc = s.upc + 1#6 ∧
      OnlyStAndUpc s t) ∧
  (∀ S : Block, addRoundKey S (Vector.replicate 16 0#8) = S ∧ addRoundKey S S = Vector.replicate 16 0#8) ∧
  (∀ S K : Block, addRoundKey S (roundKey (expandKey K) 0) = addRoundKey S K) ∧
  addRoundKey (unpack 0x00112233445566778899aabbccddeeff) (unpack 0x000102030405060708090a0b0c0d0e0f) =
    unpack 0x00102030405060708090a0b0c0d0e0f0 ∧
  addRoundKey (unpack 0x5f72641557f5bc92f7be3b291db9f91a) (unpack 0xd6aa74fdd2af72fadaa678f1d6ab76fe) =
    unpack 0x89d810e8855ace682d1843d8cb128fe4

/-- O27 (R152). `ARK r` twice with the same `r` restores the State. -/
def Obligations.ArkTwiceRestoresTheState : Prop :=
  ∀ (s : State) (r : BitVec 4) (S K : Block), r.toNat ≤ 10 → Holds s.st S → Holds (roundKeyCells s.w r.toNat) K →
    ∃ t u : State, exec (.ark r) s = .next t ∧ exec (.ark r) t = .next u ∧ u.st = s.st

/-- O28 (`43_round_transformations.md` section 1, `10_state.md` section 7). What the round transformations have in common: the
frame, and that the new State depends on the old State alone (for `ARK r`, and Round Key `r`): two states that agree on
these give the same, whatever else they hold. -/
def Obligations.RoundTransformationsReadAndWriteOnlyTheState : Prop :=
  (∀ (i : Instr) (s t : State), i ∈ [Instr.sub, .invsub, .shr, .invshr, .mix, .invmix] → exec i s = .next t →
    t.upc = s.upc + 1#6 ∧ OnlyStAndUpc s t ∧
    ∀ s' : State, s'.st = s.st → ∃ t' : State, exec i s' = .next t' ∧ t'.st = t.st) ∧
  (∀ (r : BitVec 4) (s t : State), exec (.ark r) s = .next t → t.upc = s.upc + 1#6 ∧ OnlyStAndUpc s t ∧
    ∀ s' : State, s'.st = s.st → roundKeyCells s'.w r.toNat = roundKeyCells s.w r.toNat →
      ∃ t' : State, exec (.ark r) s' = .next t' ∧ t'.st = t.st)

/-- O29 (`00_scope.md` section 6, `60_exceptions.md` section 1). A read of a cell that holds `NOVALUE` is a fault, never a
number: of `ST` by the round transformations and `STORE`, of `KEY` by `KEYEXP`, of Round Key `r` by `ARK r`. And `ARK r` with
`r` above 10, which no legal word encodes, is the fault `illegalMicroOp`, whatever the cells hold: that clause is the
model's choice, assumption log 11. -/
def Obligations.ReadOfNoValueFaults : Prop :=
  ∀ (s : State) (k : Fin 16),
    (s.st[k] = none → ∀ i ∈ [Instr.sub, .invsub, .shr, .invshr, .mix, .invmix, .store],
      exec i s = .fault .readNoValue) ∧
    (s.key[k] = none → exec .keyexp s = .fault .readNoValue) ∧
    (∀ r : BitVec 4, r.toNat ≤ 10 →
      s.st[k] = none ∨ s.w.read (wAddr (4 * r.toNat + k.val / 4) (k.val % 4)) = none →
      exec (.ark r) s = .fault .readNoValue) ∧
    (∀ r : BitVec 4, 10 < r.toNat → exec (.ark r) s = .fault .illegalMicroOp)

/-! ## Lookup tables and the multiplier -/

/-- O30 (`40_lookup_tables.md` section 1). The substitution unit: select 1 answers the entry of `SBOX`, select 0 that of `INVSBOX`, for every byte; no
register of the engine and no port changes; the section's corner cases and worked example. The spec's unit has no state:
that operand and answer are the fields `subUnit.x` and `subUnit.y` is the model's choice, assumption log 7. -/
def Obligations.SubstitutionUnitAnswersTheTable : Prop :=
  (∀ s : State, ∃ t : State, exec .sbox s = .next t ∧ t.subUnit = { x := s.subUnit.x, y := lookup sboxTable s.subUnit.x } ∧
    SameRegisters s t ∧ t.ports = s.ports) ∧
  (∀ s : State, ∃ t : State, exec .invsbox s = .next t ∧
    t.subUnit = { x := s.subUnit.x, y := lookup invsboxTable s.subUnit.x } ∧ SameRegisters s t ∧ t.ports = s.ports) ∧
  encode .sbox = .s 1#1 ∧ encode .invsbox = .s 0#1 ∧
  (∀ x : Byte, substitute x true = lookup sboxTable x ∧ substitute x false = lookup invsboxTable x) ∧
  substitute 0x00 true = 0x63 ∧ substitute 0x00 false = 0x52 ∧ substitute 0xff true = 0x16 ∧
  substitute 0xff false = 0x7d ∧ substitute 0x53 true = 0xed ∧ substitute 0xed false = 0x53 ∧
  (∀ x : Byte, substitute x true ≠ x ∧ substitute x false ≠ x)

/-- O31 (`40_lookup_tables.md` section 1). The two boxes are inverse to each other, both ways. -/
def Obligations.SubstitutionBoxesAreInverse : Prop :=
  ∀ x : Byte, substitute (substitute x true) false = x ∧ substitute (substitute x false) true = x

/-- O32 (`40_lookup_tables.md` section 1). The forward box is the multiplicative inverse followed by the affine map with the
constant 0x63, and 0 is mapped through the map as 0. -/
def Obligations.ForwardBoxIsInverseThenAffine : Prop :=
  ∀ x y : Byte, (if x = 0x00 then y = 0x00 else gfMultiply x y = 0x01) → ∀ k : Fin 8,
    (substitute x true).getLsbD k =
      ((((y.getLsbD k ^^ y.getLsbD ((k.val + 4) % 8)) ^^ y.getLsbD ((k.val + 5) % 8)) ^^ y.getLsbD ((k.val + 6) % 8)) ^^
        y.getLsbD ((k.val + 7) % 8)) ^^ (0x63#8).getLsbD k

/-- O33 (R115, R117). The ten active round constants, each the previous one doubled, starting from 1; the entry `KEYEXP` uses
at `i = 36`. -/
def Obligations.RoundConstantsAreDoublings : Prop :=
  ([1, 2, 3, 4, 5, 6, 7, 8, 9, 10].map rcon = [0x01, 0x02, 0x04, 0x08, 0x10, 0x20, 0x40, 0x80, 0x1b, 0x36]) ∧
  rcon 1 = 0x01 ∧ (∀ k : Fin 10, 1 ≤ k.val → rcon (k.val + 1) = gfMultiply (rcon k) 0x02) ∧ rcon (36 / 4) = 0x1b ∧
  rconTable.length = 11

/-- O34 (`41_gf_multiplier.md` section 1). The doubling step is multiplication by 0x02; its worked examples. -/
def Obligations.XtimeIsMultiplicationByTwo : Prop :=
  (∀ a : Byte, xtime a = gfMultiply a 0x02) ∧
  (∀ a : Byte, xtime a = if a.getLsbD 7 = true then (a <<< 1) ^^^ 0x1b else a <<< 1) ∧
  xtime 0x57 = 0xae ∧ xtime 0xae = 0x47 ∧ xtime 0x80 = 0x1b ∧ xtime 0x00 = 0x00

/-- O35 (`41_gf_multiplier.md` section 1). The multiplier: one and zero on either side, commutative, no zero divisors by way of inverses, the corner
cases. -/
def Obligations.MultiplierLaws : Prop :=
  (∀ a : Byte, gfMultiply a 0x01 = a ∧ gfMultiply a 0x00 = 0x00 ∧ gfMultiply 0x00 a = 0x00 ∧ gfMultiply 0x01 a = a) ∧
  (∀ a b : Byte, gfMultiply a b = gfMultiply b a) ∧
  (∀ a : Byte, a ≠ 0x00 → ∃ b : Byte, gfMultiply a b = 0x01) ∧
  gfMultiply 0x80 0x02 = 0x1b ∧ gfMultiply 0x02 0x80 = 0x1b ∧ gfMultiply 0xff 0xff = 0x13 ∧ gfMultiply 0x53 0xca = 0x01

/-- O36 (`41_gf_multiplier.md` section 2). GF(2^8) with XOR as addition: multiplication distributes over XOR, on both sides,
and is associative. -/
def Obligations.MultiplicationDistributesAndAssociates : Prop :=
  ∀ a b c : Byte, gfMultiply a (b ^^^ c) = gfMultiply a b ^^^ gfMultiply a c ∧
    gfMultiply (a ^^^ b) c = gfMultiply a c ^^^ gfMultiply b c ∧
    gfMultiply (gfMultiply a b) c = gfMultiply a (gfMultiply b c)

/-- O37 (`41_gf_multiplier.md` section 1). `gf_multiply` is multiplication of polynomials over GF(2) reduced modulo
`x^8 + x^4 + x^3 + x + 1`: the product of the two operands' polynomials and the polynomial of the result differ by a
multiple of the modulus. -/
def Obligations.MultiplierIsPolynomialProduct : Prop :=
  let poly : Byte → Polynomial (ZMod 2) := fun a =>
    ∑ k : Fin 8, if a.getLsbD k.val = true then (Polynomial.X : Polynomial (ZMod 2)) ^ k.val else 0
  ∀ a b : Byte, ∃ q : Polynomial (ZMod 2),
    poly a * poly b = q * (Polynomial.X ^ 8 + Polynomial.X ^ 4 + Polynomial.X ^ 3 + Polynomial.X + 1) +
      poly (gfMultiply a b)

/-- O38 (`41_gf_multiplier.md` section 2). The products by the seven matrix constants, written with `xtime`. -/
def Obligations.MatrixConstantsByDoubling : Prop :=
  ∀ s : Byte, gfMultiply 1 s = s ∧ gfMultiply 2 s = xtime s ∧ gfMultiply 3 s = xtime s ^^^ s ∧
    gfMultiply 9 s = xtime (xtime (xtime s)) ^^^ s ∧
    gfMultiply 11 s = xtime (xtime (xtime s)) ^^^ xtime s ^^^ s ∧
    gfMultiply 13 s = xtime (xtime (xtime s)) ^^^ xtime (xtime s) ^^^ s ∧
    gfMultiply 14 s = xtime (xtime (xtime s)) ^^^ xtime (xtime s) ^^^ xtime s

/-- O39 (`43_round_transformations.md` section 4). The two matrices are inverse to each other in GF(2^8), in either order. -/
def Obligations.MatricesAreInverse : Prop :=
  ∀ r j : Fin 4,
    (gfMultiply invmixc[r][0] mixc[0][j] ^^^ gfMultiply invmixc[r][1] mixc[1][j] ^^^
      gfMultiply invmixc[r][2] mixc[2][j] ^^^ gfMultiply invmixc[r][3] mixc[3][j] = if r = j then 1 else 0) ∧
    (gfMultiply mixc[r][0] invmixc[0][j] ^^^ gfMultiply mixc[r][1] invmixc[1][j] ^^^
      gfMultiply mixc[r][2] invmixc[2][j] ^^^ gfMultiply mixc[r][3] invmixc[3][j] = if r = j then 1 else 0)

/-- O40 (`43_round_transformations.md` section 6). The inverse pairs, both ways. -/
def Obligations.TransformationsAreInversePairs : Prop :=
  ∀ (S K : Block) (d : Bool), subBytes (subBytes S d) (!d) = S ∧ shiftRows (shiftRows S d) (!d) = S ∧
    mixColumns (mixColumns S d) (!d) = S ∧ addRoundKey (addRoundKey S K) K = S

/-- O41 (`43_round_transformations.md` section 6). Substitution and row rotation commute, as functions and as
micro-operations: `SUB; SHR` gives what `SHR; SUB` gives, and `INVSHR; INVSUB` what `INVSUB; INVSHR` gives. -/
def Obligations.SubstitutionCommutesWithRotation : Prop :=
  (∀ (S : Block) (d e : Bool), subBytes (shiftRows S d) e = shiftRows (subBytes S e) d) ∧
  (∀ s t u : State, exec .sub s = .next t → exec .shr t = .next u →
    ∃ t' : State, exec .shr s = .next t' ∧ exec .sub t' = .next u) ∧
  (∀ s t u : State, exec .invshr s = .next t → exec .invsub t = .next u →
    ∃ t' : State, exec .invsub s = .next t' ∧ exec .invshr t' = .next u)

/-! ## Whole operations -/

/-- O42 (`95_test_vectors.md` E1, V3). The source's known-answer vector, both ways, and the all-zero vector. -/
def Obligations.KnownAnswerVectors : Prop :=
  encryptBlock (unpack 0x00112233445566778899aabbccddeeff) (unpack 0x000102030405060708090a0b0c0d0e0f) =
    unpack 0x69c4e0d86a7b0430d8cdb78070b4c55a ∧
  decryptBlock (unpack 0x69c4e0d86a7b0430d8cdb78070b4c55a) (unpack 0x000102030405060708090a0b0c0d0e0f) =
    unpack 0x00112233445566778899aabbccddeeff ∧
  encryptBlock (unpack 0) (unpack 0) = unpack 0x66e94bd4ef8a2c3b884cfa59ca342b2e

/-- O43 (`44_cipher_orchestrator.md` section 5). The round trip on blocks, both ways: for all blocks and keys. -/
def Obligations.DecryptInvertsEncrypt : Prop :=
  ∀ M K : Block, decryptBlock (encryptBlock M K) K = M ∧ encryptBlock (decryptBlock M K) K = M

/-- O44 (`44_cipher_orchestrator.md` section 5). From every idle state: an accepted `ENCRYPT` of block `B` under key `K`, and
42 further steps in which the host drives the ports to anything but a reset, end with `OUT = encrypt_block(B, K)`, and
`out_block` shows it with `done = 1` as long as the host offers no command and requests no reset. The result depends on
`B` and `K` only. -/
def Obligations.EncryptOperationDelivers : Prop :=
  ∀ (s : State) (p : Ports) (ps : List Ports), s.busy = false → p.cmdValid = true → p.cmdFwd = true →
    p.resetReq = false → ps.length = 42 → (∀ q ∈ ps, q.resetReq = false) →
    ∃ t : State, runDriven (p :: ps) s = .next t ∧
      Holds t.out (encryptBlock (unpack p.cmdBlock) (unpack p.cmdKey)) ∧
      ∀ qs : List Ports, (∀ q ∈ qs, q.cmdValid = false ∧ q.resetReq = false) →
        ∃ u : State, runDriven qs t = .next u ∧
          observe u =
            ⟨true, false, true, some (pack (encryptBlock (unpack p.cmdBlock) (unpack p.cmdKey)))⟩

/-- O45 (`44_cipher_orchestrator.md` section 5). The same for `DECRYPT` and `decrypt_block`. -/
def Obligations.DecryptOperationDelivers : Prop :=
  ∀ (s : State) (p : Ports) (ps : List Ports), s.busy = false → p.cmdValid = true → p.cmdFwd = false →
    p.resetReq = false → ps.length = 42 → (∀ q ∈ ps, q.resetReq = false) →
    ∃ t : State, runDriven (p :: ps) s = .next t ∧
      Holds t.out (decryptBlock (unpack p.cmdBlock) (unpack p.cmdKey)) ∧
      ∀ qs : List Ports, (∀ q ∈ qs, q.cmdValid = false ∧ q.resetReq = false) →
        ∃ u : State, runDriven qs t = .next u ∧
          observe u =
            ⟨true, false, true, some (pack (decryptBlock (unpack p.cmdBlock) (unpack p.cmdKey)))⟩

/-- O46 (R173). After acceptance the engine executes exactly 42 further steps and is then idle with `DONE = 1`: absent a
reset, after `n` further steps it is busy at `UPC = n + 1` for `n < 42`, and done for `n = 42`; no step faults. -/
def Obligations.OperationTakesFortyTwoSteps : Prop :=
  ∀ (s : State) (p : Ports) (ps : List Ports), s.busy = false → p.cmdValid = true → p.resetReq = false →
    ps.length ≤ 42 → (∀ q ∈ ps, q.resetReq = false) →
    ∃ t : State, runDriven (p :: ps) s = .next t ∧
      (if ps.length < 42 then t.busy = true ∧ t.done = false ∧ t.upc.toNat = ps.length + 1
       else t.busy = false ∧ t.done = true ∧ t.upc = 0#6)

/-- O47 (`44_cipher_orchestrator.md` section 5). Successive operations are independent: two idle engines, whatever they hold,
that accept the same command and then see the same ports (resets among them) hold the same registers after every step. -/
def Obligations.OperationsAreIndependent : Prop :=
  ∀ (s₁ s₂ : State) (p : Ports) (ps : List Ports), s₁.busy = false → s₂.busy = false → p.cmdValid = true →
    p.resetReq = false →
    ∃ t₁ t₂ : State, runDriven (p :: ps) s₁ = .next t₁ ∧ runDriven (p :: ps) s₂ = .next t₂ ∧ SameRegisters t₁ t₂

/-! ## Whole-machine rules -/

/-- O48 (`70_reset_and_hazards.md` section 3). The invariant holds after reset. -/
def Obligations.ResetMeetsTheInvariant : Prop :=
  State.reset.Inv

/-- O49 (`70_reset_and_hazards.md` section 3, `10_state.md` sections 2 to 4). Every step keeps the invariant, whatever the
host drives before it: `W` in canonical form; in an operation `ST` and `KEY` hold values, `UPC` is 1..42, and behind
`KEYEXP` `W` is the expansion of `KEY`; between operations nothing of one is left, and `OUT` holds a result exactly when
`DONE` is 1. -/
def Obligations.EveryStepKeepsTheInvariant : Prop :=
  ∀ (s t : State) (p : Ports), s.Inv → step (s.drive p) = .next t → t.Inv

/-- O50 (`70_reset_and_hazards.md` section 3, `60_exceptions.md` section 1). The engine raises nothing: from a state of the
invariant every step has a next state, whatever the host drives; no read of `NOVALUE`, no illegal word, no fetch out of
range, no `LOAD` outside an acceptance. -/
def Obligations.NoStepFaultsUnderTheInvariant : Prop :=
  ∀ (s : State) (p : Ports), s.Inv → ∃ t : State, step (s.drive p) = .next t

/-- O51 (`10_state.md` section 3). How `UPC` moves, over every step of every state. That a reset wins over an acceptance is
assumption log 5; that an idle engine has a step that leaves `UPC` alone is the model's choice, assumption log 4. -/
def Obligations.UpcMovesOnlyAsStated : Prop :=
  (∀ s t : State, step s = .next t →
    (s.ports.resetReq = true → t.upc = 0#6) ∧
    (s.ports.resetReq = false → accepting s = true → t.upc = 1#6) ∧
    (s.ports.resetReq = false → s.busy = false → s.ports.cmdValid = false → t.upc = s.upc) ∧
    (s.ports.resetReq = false → s.busy = true → fetch s = .ok 0xe0#8 → t.upc = 0#6) ∧
    (s.ports.resetReq = false → s.busy = true → fetch s ≠ .ok 0xe0#8 → t.upc = s.upc + 1#6)) ∧
  (∀ (d : Bool) (n : BitVec 6), (mprogWord d n = some 0xe0#8 ↔ n.toNat = 42) ∧
    (mprogWord d n = none ↔ 42 < n.toNat) ∧ (mprogWord d n = some 0x20#8 ↔ n.toNat = 0))

/-- O52 (`10_state.md` section 4). How `BUSY` and `DONE` move: set and cleared by acceptance, `STORE` and reset and by nothing else;
(1,1) never occurs; while `DONE = 1` every cell of `OUT` holds a value; `cmd_ready = NOT BUSY`. That a reset wins over an
acceptance is assumption log 5. -/
def Obligations.FlagsMoveOnlyAsStated : Prop :=
  ∀ s t : State, step s = .next t →
    (s.ports.resetReq = true → t.busy = false ∧ t.done = false) ∧
    (s.ports.resetReq = false → accepting s = true → t.busy = true ∧ t.done = false) ∧
    (s.ports.resetReq = false → s.busy = true → fetch s = .ok 0xe0#8 → t.busy = false ∧ t.done = true) ∧
    (s.ports.resetReq = false → accepting s = false → ¬(s.busy = true ∧ fetch s = .ok 0xe0#8) →
      t.busy = s.busy ∧ t.done = s.done) ∧
    (¬(s.busy = true ∧ s.done = true) → ¬(t.busy = true ∧ t.done = true)) ∧
    ((s.done = true → ∃ B : Block, Holds s.out B) → t.done = true → ∃ B : Block, Holds t.out B) ∧
    cmdReady t = !t.busy

/-- O53 (`10_state.md` section 7). The access matrix, the writes: what each instruction leaves alone, over all instructions
and states. `KEY`, `OUT`, `FWD` and the flags change by acceptance and `STORE` only (`STORE` leaves `FWD`); `W` also by
`KEYEXP`; `ST` not by `KEYEXP`; the substitution unit's two instructions change no register; no instruction changes a port. -/
def Obligations.InstructionsWriteOnlyTheirRegisters : Prop :=
  ∀ (i : Instr) (s t : State), exec i s = .next t →
    (i ∉ [Instr.encrypt, .decrypt, .load, .store] →
      t.key = s.key ∧ t.out = s.out ∧ t.fwd = s.fwd ∧ t.busy = s.busy ∧ t.done = s.done) ∧
    (i ∉ [Instr.encrypt, .decrypt, .load, .store, .keyexp] → ∀ a : Nat, t.w.read a = s.w.read a) ∧
    (i = .keyexp → t.st = s.st) ∧ (i = .store → t.fwd = s.fwd) ∧
    (i = .sbox ∨ i = .invsbox → SameRegisters s t) ∧
    (i ≠ .sbox → i ≠ .invsbox → t.subUnit = s.subUnit) ∧ t.ports = s.ports

/-- O54 (`44_cipher_orchestrator.md` section 6). Control is data-independent: two engines in states of the invariant with the
same `FWD`, `UPC`, `BUSY`, `DONE`, whose hosts drive ports that differ at most in block and key, have the same control
state after the step. -/
def Obligations.ControlIsDataIndependent : Prop :=
  ∀ (s₁ s₂ : State) (p : Ports) (b k : Bus), s₁.Inv → s₂.Inv → SameControl s₁ s₂ →
    ∃ t₁ t₂ : State, step (s₁.drive p) = .next t₁ ∧
      step (s₂.drive { p with cmdBlock := b, cmdKey := k }) = .next t₂ ∧ SameControl t₁ t₂

/-- O55 (`70_reset_and_hazards.md` section 4). While the engine is busy, what the host drives on the command ports has no
effect: with any two port values that request no reset, the step gives the same registers. -/
def Obligations.BusyEngineIgnoresTheCommandPorts : Prop :=
  ∀ (s t : State) (p q : Ports), s.busy = true → p.resetReq = false → q.resetReq = false →
    step (s.drive p) = .next t → step (s.drive q) = .next (t.drive q)

/-- O56 (`70_reset_and_hazards.md` sections 1 and 4). When an operation ends, by its `STORE` or by a reset, the State, the key
and the schedule hold no value. -/
def Obligations.EndedOperationLeavesNoSecret : Prop :=
  ∀ s t : State, step s = .next t → s.busy = true → t.busy = false →
    HoldsNothing t.st ∧ HoldsNothing t.key ∧ ∀ a : Nat, t.w.read a = none

/-! ## Ports and text -/

/-- O57 (R35). The result port: bits `[127-8i : 120-8i]` equal `OUT[i]` while `done = 1`; while `done = 0` the read has no
value and is a fault of the host's. In a state of the invariant every cell of `OUT` holds `NOVALUE` while `done = 0`, and
a value while `done = 1`. Reading is a function of the state and changes nothing. -/
def Obligations.OutBlockShowsTheResult : Prop :=
  ∀ s : State,
    (s.done = false → readOutBlock s = .error .readNoValue) ∧
    (∀ S : Block, s.done = true → Holds s.out S →
      ∃ v : Bus, readOutBlock s = .ok v ∧ ∀ i : Fin 16, v.extractLsb' (120 - 8 * i.val) 8 = S[i]) ∧
    (s.Inv → s.done = false → HoldsNothing s.out) ∧ (s.Inv → s.done = true → ∃ S : Block, Holds s.out S)

/-- O58 (`20_memory.md` section 2, `95_test_vectors.md` V62). Blocks on the 128-bit ports: byte `i` at bits
`[127-8i : 120-8i]`, and packing and unpacking are inverse to each other. -/
def Obligations.PortPackingIsInverse : Prop :=
  (∀ (v : Bus) (i : Fin 16), (unpack v)[i] = v.extractLsb' (120 - 8 * i.val) 8) ∧
  (∀ B : Block, unpack (pack B) = B) ∧ (∀ v : Bus, pack (unpack v) = v)

/-- O59 (`45_hex_interface.md` sections 1 and 2, `60_exceptions.md` sections 1 to 3). The text form and its errors: the value of
each of the 22 digits, and no other character has one; characters `2i` and `2i+1` of a decoded string are the high and the
low nibble of byte `i`; the encoded string shows them as lower-case digits in the same places; encoding and decoding are
inverse up to letter case; `validate` decides by length first and characters second; the error codes are 0, 1, 2 and never
3; and a rejected call leaves the engine as it was and yields no string. -/
def Obligations.TextFormAndItsErrors : Prop :=
  (['0', '1', '2', '3', '4', '5', '6', '7', '8', '9'].map hexval = [0, 1, 2, 3, 4, 5, 6, 7, 8, 9].map some) ∧
  (['a', 'b', 'c', 'd', 'e', 'f'].map hexval = [10, 11, 12, 13, 14, 15].map some) ∧
  (['A', 'B', 'C', 'D', 'E', 'F'].map hexval = [10, 11, 12, 13, 14, 15].map some) ∧
  (∀ (x : List Char) (B : Block), hexDecodeBlock x = some B → x.length = 32 ∧
    ∀ i : Fin 16, (x[2 * i.val]?).bind hexval = some (B[i].extractLsb' 4 4) ∧
      (x[2 * i.val + 1]?).bind hexval = some (B[i].extractLsb' 0 4)) ∧
  (∀ (B : Block) (i : Fin 16),
    (hexEncodeBlock B)[2 * i.val]? = "0123456789abcdef".toList[(B[i].extractLsb' 4 4).toNat]? ∧
      (hexEncodeBlock B)[2 * i.val + 1]? = "0123456789abcdef".toList[(B[i].extractLsb' 0 4).toNat]?) ∧
  (errorCode none = 0#2 ∧ errorCode (some .invalidInputLength) = 1#2 ∧ errorCode (some .invalidHexCharacter) = 2#2 ∧
    ∀ e : Option AdapterError, errorCode e ≠ 3#2) ∧
  (∀ B : Block, hexDecodeBlock (hexEncodeBlock B) = some B ∧ (hexEncodeBlock B).length = 32 ∧
    ∀ ch ∈ hexEncodeBlock B, ch.toLower = ch) ∧
  (∀ x : List Char, x.length = 32 → (∀ ch ∈ x, hexval ch ≠ none) →
    ∃ B : Block, hexDecodeBlock x = some B ∧ hexEncodeBlock B = x.map Char.toLower) ∧
  (∀ ch : Char, hexval ch ≠ none ↔ ch ∈ ['0', '1', '2', '3', '4', '5', '6', '7', '8', '9', 'a', 'b', 'c', 'd', 'e', 'f', 'A',
    'B', 'C', 'D', 'E', 'F']) ∧
  (∀ x k : List Char,
    (validate x k = .error .invalidInputLength ↔ x.length ≠ 32 ∨ k.length ≠ 32) ∧
    (validate x k = .error .invalidHexCharacter ↔
      x.length = 32 ∧ k.length = 32 ∧ ((∃ ch ∈ x, hexval ch = none) ∨ ∃ ch ∈ k, hexval ch = none)) ∧
    (validate x k = .ok () ↔
      x.length = 32 ∧ k.length = 32 ∧ (∀ ch ∈ x, hexval ch ≠ none) ∧ ∀ ch ∈ k, hexval ch ≠ none)) ∧
  (∀ (d : Bool) (x k : List Char) (rs : List Bool) (e : AdapterError) (s : State), validate x k = .error e →
    adapterCall d x k rs s = .error e s)

/-- O60 (`45_hex_interface.md` section 3, `70_reset_and_hazards.md` section 1). The adapter's two operations, on valid strings and
an engine in a state of the invariant, be it idle or busy with an earlier command. With the reset requested in the first
`n` steps of the call, `n` being 0 or more, and released for the 85 steps an operation and its wait may take, `encrypt`
returns the text of `encrypt_block` and `decrypt` that of `decrypt_block`, and the engine is then ready in a state of the
invariant. While a reset takes every step, a ready engine's offer stays up. A reset in any of the 42 steps behind the
acceptance leaves the call waiting, with no result, however long it is followed. How the adapter sees the acceptance and
leaves the ports is assumption logs 14, 19 and 21. -/
def Obligations.AdapterReturnsTheCipherText : Prop :=
  ∀ (x k : List Char) (B K : Block) (s : State), s.Inv → validate x k = .ok () →
    hexDecodeBlock x = some B → hexDecodeBlock k = some K →
    (∀ (n : Nat) (rs : List Bool), 85 ≤ rs.length → (∀ r ∈ rs, r = false) →
      (∃ t : State, adapterEncrypt x k (List.replicate n true ++ rs) s = .result (hexEncodeBlock (encryptBlock B K)) t ∧
        t.Inv ∧ cmdReady t = true) ∧
      (∃ t : State, adapterDecrypt x k (List.replicate n true ++ rs) s = .result (hexEncodeBlock (decryptBlock B K)) t ∧
        t.Inv ∧ cmdReady t = true)) ∧
    (cmdReady s = true → ∀ (d : Bool) (n : Nat), ∃ t : State,
      adapterCall d x k (List.replicate (n + 1) true) s = .waiting t ∧ t.ports.cmdValid = true ∧ t.ports.cmdFwd = d ∧
        t.ports.cmdBlock = pack B ∧ t.ports.cmdKey = pack K) ∧
    (cmdReady s = true → ∀ (d : Bool) (n m : Nat) (rs : List Bool), m < 42 → ∃ t : State,
      adapterCall d x k (List.replicate n true ++ List.replicate (m + 1) false ++ true :: rs) s = .waiting t ∧
        busyPort t = false ∧ donePort t = false)
end

