-- ==== Sys2Proof/Laws/Memory.lean ====
section
/-! SUPPORT. The laws of the memory space `WMEM`: read after write, and that every operation keeps the canonical form. -/

namespace Sys2Proof.Machine

@[simp] theorem Memory.read_nil (a : Nat) : Memory.read [] a = none := rfl

theorem Memory.read_write_same (m : Memory) (a : Nat) (v : Byte) : (m.write a v).read a = some v := by
  induction m with
  | nil => simp [Memory.write, Memory.read]
  | cons c m ih =>
    obtain ⟨b, x⟩ := c
    simp only [Memory.write]
    split
    · simp [Memory.read]
    · split
      · simp [Memory.read]
      · next h1 h2 =>
        have : b ≠ a := fun h => h2 h.symm
        simp [Memory.read, this, ih]

theorem Memory.read_write_other (m : Memory) (a b : Nat) (v : Byte) (h : a ≠ b) :
    (m.write a v).read b = m.read b := by
  induction m with
  | nil => simp [Memory.write, Memory.read, h]
  | cons c m ih =>
    obtain ⟨d, x⟩ := c
    simp only [Memory.write]
    split
    · simp [Memory.read, h]
    · split
      · next h2 => subst h2; simp [Memory.read, h]
      · simp [Memory.read, ih]

theorem Memory.risesAbove_write (m : Memory) (lo a : Nat) (v : Byte) (hm : Memory.risesAbove lo m = true)
    (ha : lo < a) : Memory.risesAbove lo (m.write a v) = true := by
  induction m generalizing lo with
  | nil => simp [Memory.write, Memory.risesAbove, ha]
  | cons c m ih =>
    obtain ⟨b, x⟩ := c
    simp only [Memory.risesAbove, Bool.and_eq_true, decide_eq_true_eq] at hm
    simp only [Memory.write]
    split
    · next h1 => simp [Memory.risesAbove, ha, h1, hm.2]
    · split
      · next h2 => subst h2; simp [Memory.risesAbove, ha, hm.2]
      · next h1 h2 => simp [Memory.risesAbove, hm.1, ih b hm.2 (by omega)]

theorem Memory.all_write (m : Memory) (a : Nat) (v : Byte) (p : Host.Cell → Bool) (hm : m.all p = true)
    (hv : p (a, v) = true) : (m.write a v).all p = true := by
  induction m with
  | nil => simp [Memory.write, hv]
  | cons c m ih =>
    obtain ⟨b, x⟩ := c
    simp only [List.all_cons, Bool.and_eq_true] at hm
    simp only [Memory.write]
    split
    · simp [hv, hm.1, hm.2]
    · split
      · simp [hv, hm.2]
      · simp [hm.1, ih hm.2]

/-- A write to an address of `WMEM` keeps the canonical form. -/
theorem Memory.wf_write (m : Memory) (a : Nat) (v : Byte) (hm : m.wf = true) (ha : a < 176) :
    (m.write a v).wf = true := by
  cases m with
  | nil => simp [Memory.write, Memory.wf, Memory.risesAbove, ha]
  | cons c m =>
    obtain ⟨b, x⟩ := c
    simp only [Memory.wf, Bool.and_eq_true] at hm
    obtain ⟨h1, h2⟩ := hm
    have hall := Memory.all_write ((b, x) :: m) a v (fun c => decide (c.1 < 176)) h2 (by simp [ha])
    simp only [Memory.write] at hall ⊢
    split at hall <;> rename_i hab
    · simp only [if_pos hab, Memory.wf, Bool.and_eq_true]
      exact ⟨by simp [Memory.risesAbove, hab, h1], hall⟩
    · rw [if_neg hab]
      split at hall <;> rename_i hab2
      · rw [if_pos hab2]
        subst hab2
        exact Bool.and_eq_true_iff.2 ⟨h1, hall⟩
      · simp only [if_neg hab2, Memory.wf, Bool.and_eq_true]
        exact ⟨Memory.risesAbove_write m b a v h1 (by omega), hall⟩

theorem Memory.wf_writeWord (m : Memory) (i : Nat) (v : Word4) (hm : m.wf = true) (hi : i < 44) :
    (m.writeWord i v).wf = true := by
  unfold Memory.writeWord wAddr
  refine wf_write _ _ _ (wf_write _ _ _ (wf_write _ _ _ (wf_write _ _ _ hm ?_) ?_) ?_) ?_ <;> omega

/-- Writing words at indices below 44 keeps the canonical form. -/
theorem Memory.wf_writeWords (m : Memory) (i : Nat) (vs : List Word4) (hm : m.wf = true) (hi : i + vs.length ≤ 44) :
    (Memory.writeWords m i vs).wf = true := by
  induction vs generalizing i with
  | nil => simpa [Memory.writeWords] using hm
  | cons v vs ih =>
    simp only [List.length_cons] at hi
    exact Memory.wf_writeWord _ _ _ (ih (i + 1) (by omega)) (by omega)

theorem Memory.read_writeWord_other (m : Memory) (i a : Nat) (v : Word4) (h : a < 4 * i ∨ 4 * i + 4 ≤ a) :
    (m.writeWord i v).read a = m.read a := by
  unfold Memory.writeWord wAddr
  rw [read_write_other _ _ _ _ (by omega), read_write_other _ _ _ _ (by omega), read_write_other _ _ _ _ (by omega),
    read_write_other _ _ _ _ (by omega)]

theorem Memory.read_writeWord_same (m : Memory) (i : Nat) (v : Word4) (j : Fin 4) :
    (m.writeWord i v).read (wAddr i j) = some v[j] := by
  unfold Memory.writeWord wAddr
  fin_cases j
  · exact read_write_same _ _ _
  · rw [read_write_other _ _ _ _ (by simp)]
    exact read_write_same _ _ _
  · rw [read_write_other _ _ _ _ (by simp), read_write_other _ _ _ _ (by simp)]
    exact read_write_same _ _ _
  · rw [read_write_other _ _ _ _ (by simp), read_write_other _ _ _ _ (by simp), read_write_other _ _ _ _ (by simp)]
    exact read_write_same _ _ _

theorem Memory.read_writeWords_below (m : Memory) (i a : Nat) (vs : List Word4) (h : a < 4 * i) :
    (Memory.writeWords m i vs).read a = m.read a := by
  induction vs generalizing i with
  | nil => rfl
  | cons v vs ih =>
    simp only [Memory.writeWords]
    rw [Memory.read_writeWord_other _ _ _ _ (.inl h), ih _ (by omega)]

theorem Memory.read_writeWords_above (m : Memory) (i a : Nat) (vs : List Word4) (h : 4 * (i + vs.length) ≤ a) :
    (Memory.writeWords m i vs).read a = m.read a := by
  induction vs generalizing i with
  | nil => rfl
  | cons v vs ih =>
    simp only [List.length_cons] at h
    simp only [Memory.writeWords]
    rw [Memory.read_writeWord_other _ _ _ _ (.inr (by omega)), ih _ (by omega)]

theorem Memory.read_writeWords_at (m : Memory) (i k : Nat) (vs : List Word4) (j : Fin 4) (h : k < vs.length) :
    (Memory.writeWords m i vs).read (wAddr (i + k) j) = some vs[k][j] := by
  induction vs generalizing i k with
  | nil => simp at h
  | cons v vs ih =>
    simp only [Memory.writeWords]
    cases k with
    | zero => simpa using Memory.read_writeWord_same _ i v j
    | succ k =>
      rw [Memory.read_writeWord_other _ _ _ _ (by unfold wAddr; omega)]
      have := ih (i + 1) k (by simpa using h)
      rw [show i + (k + 1) = i + 1 + k by omega]
      simpa using this

/-- After a whole schedule is written, `W` holds it. -/
theorem scheduleIn_writeW (m : Memory) (ws : Schedule) : ScheduleIn (Memory.writeWords m 0 ws.toList) ws := by
  intro i j
  have := Memory.read_writeWords_at m 0 i ws.toList j (by simp)
  simpa using this

theorem Memory.risesAbove_read (m : Memory) (lo a : Nat) (h : Memory.risesAbove lo m = true) (ha : a ≤ lo) :
    m.read a = none := by
  induction m generalizing lo with
  | nil => rfl
  | cons c m ih =>
    obtain ⟨b, x⟩ := c
    simp only [Memory.risesAbove, Bool.and_eq_true, decide_eq_true_eq] at h
    have hb : b ≠ a := by omega
    simp [Memory.read, hb, ih b h.2 (by omega)]

theorem Memory.wf_tail {c : Host.Cell} {m : Memory} (h : Memory.wf (c :: m) = true) : m.wf = true := by
  obtain ⟨a, v⟩ := c
  simp only [Memory.wf, List.all_cons, Bool.and_eq_true] at h
  cases m with
  | nil => rfl
  | cons d m =>
    obtain ⟨b, x⟩ := d
    simp only [Memory.risesAbove, Bool.and_eq_true] at h
    simp only [Memory.wf, Bool.and_eq_true]
    exact ⟨h.1.2, h.2.2⟩

/-- Canonical memories with the same contents are the same list. -/
theorem Memory.ext_of_read (m n : Memory) (hm : m.wf = true) (hn : n.wf = true)
    (h : ∀ a, m.read a = n.read a) : m = n := by
  induction m generalizing n with
  | nil =>
    cases n with
    | nil => rfl
    | cons c n => obtain ⟨a, v⟩ := c; simpa [Memory.read] using h a
  | cons c m ih =>
    obtain ⟨a, v⟩ := c
    have hm' := hm
    simp only [Memory.wf, Bool.and_eq_true] at hm'
    cases n with
    | nil => simpa [Memory.read] using h a
    | cons d n =>
      obtain ⟨b, x⟩ := d
      have hn' := hn
      simp only [Memory.wf, Bool.and_eq_true] at hn'
      have hab : a = b := by
        rcases Nat.lt_trichotomy a b with hlt | heq | hgt
        · have h1 := h a
          have hne : b ≠ a := by omega
          rw [Memory.read, if_pos rfl, Memory.read, if_neg hne, Memory.risesAbove_read n b a hn'.1 (by omega)] at h1
          simp at h1
        · exact heq
        · have h1 := h b
          have hne : a ≠ b := by omega
          rw [Memory.read, if_neg hne, Memory.read, if_pos rfl, Memory.risesAbove_read m a b hm'.1 (by omega)] at h1
          simp at h1
      subst hab
      have hv : v = x := by simpa [Memory.read] using h a
      subst hv
      rw [ih n (Memory.wf_tail hm) (Memory.wf_tail hn) ?_]
      intro k
      by_cases hk : a = k
      · subst hk
        rw [Memory.risesAbove_read m a a hm'.1 (Nat.le_refl _), Memory.risesAbove_read n a a hn'.1 (Nat.le_refl _)]
      · simpa [Memory.read, hk] using h k

end Sys2Proof.Machine
end

