-- ==== Sys2Proof/Laws/State.lean ====
section
/-! SUPPORT. One lemma per field per update of `State`, each true by `rfl`: no later proof unfolds a record update. -/

namespace Sys2Proof.Machine

@[simp] theorem State.writeSt_st (s : State) (b : Block) : (s.writeSt b).st = holdBlock b := rfl
@[simp] theorem State.writeSt_key (s : State) (b : Block) : (s.writeSt b).key = s.key := rfl
@[simp] theorem State.writeSt_w (s : State) (b : Block) : (s.writeSt b).w = s.w := rfl
@[simp] theorem State.writeSt_out (s : State) (b : Block) : (s.writeSt b).out = s.out := rfl
@[simp] theorem State.writeSt_fwd (s : State) (b : Block) : (s.writeSt b).fwd = s.fwd := rfl
@[simp] theorem State.writeSt_upc (s : State) (b : Block) : (s.writeSt b).upc = s.upc := rfl
@[simp] theorem State.writeSt_busy (s : State) (b : Block) : (s.writeSt b).busy = s.busy := rfl
@[simp] theorem State.writeSt_done (s : State) (b : Block) : (s.writeSt b).done = s.done := rfl
@[simp] theorem State.writeSt_ports (s : State) (b : Block) : (s.writeSt b).ports = s.ports := rfl
@[simp] theorem State.writeSt_subUnit (s : State) (b : Block) : (s.writeSt b).subUnit = s.subUnit := rfl

@[simp] theorem State.writeKey_st (s : State) (b : Block) : (s.writeKey b).st = s.st := rfl
@[simp] theorem State.writeKey_key (s : State) (b : Block) : (s.writeKey b).key = holdBlock b := rfl
@[simp] theorem State.writeKey_w (s : State) (b : Block) : (s.writeKey b).w = s.w := rfl
@[simp] theorem State.writeKey_out (s : State) (b : Block) : (s.writeKey b).out = s.out := rfl
@[simp] theorem State.writeKey_fwd (s : State) (b : Block) : (s.writeKey b).fwd = s.fwd := rfl
@[simp] theorem State.writeKey_upc (s : State) (b : Block) : (s.writeKey b).upc = s.upc := rfl
@[simp] theorem State.writeKey_busy (s : State) (b : Block) : (s.writeKey b).busy = s.busy := rfl
@[simp] theorem State.writeKey_done (s : State) (b : Block) : (s.writeKey b).done = s.done := rfl
@[simp] theorem State.writeKey_ports (s : State) (b : Block) : (s.writeKey b).ports = s.ports := rfl
@[simp] theorem State.writeKey_subUnit (s : State) (b : Block) : (s.writeKey b).subUnit = s.subUnit := rfl

@[simp] theorem State.writeOut_st (s : State) (b : Block) : (s.writeOut b).st = s.st := rfl
@[simp] theorem State.writeOut_key (s : State) (b : Block) : (s.writeOut b).key = s.key := rfl
@[simp] theorem State.writeOut_w (s : State) (b : Block) : (s.writeOut b).w = s.w := rfl
@[simp] theorem State.writeOut_out (s : State) (b : Block) : (s.writeOut b).out = holdBlock b := rfl
@[simp] theorem State.writeOut_fwd (s : State) (b : Block) : (s.writeOut b).fwd = s.fwd := rfl
@[simp] theorem State.writeOut_upc (s : State) (b : Block) : (s.writeOut b).upc = s.upc := rfl
@[simp] theorem State.writeOut_busy (s : State) (b : Block) : (s.writeOut b).busy = s.busy := rfl
@[simp] theorem State.writeOut_done (s : State) (b : Block) : (s.writeOut b).done = s.done := rfl
@[simp] theorem State.writeOut_ports (s : State) (b : Block) : (s.writeOut b).ports = s.ports := rfl
@[simp] theorem State.writeOut_subUnit (s : State) (b : Block) : (s.writeOut b).subUnit = s.subUnit := rfl

@[simp] theorem State.writeW_st (s : State) (ws : Schedule) : (s.writeW ws).st = s.st := rfl
@[simp] theorem State.writeW_key (s : State) (ws : Schedule) : (s.writeW ws).key = s.key := rfl
@[simp] theorem State.writeW_w (s : State) (ws : Schedule) : (s.writeW ws).w = Memory.writeWords s.w 0 ws.toList := rfl
@[simp] theorem State.writeW_out (s : State) (ws : Schedule) : (s.writeW ws).out = s.out := rfl
@[simp] theorem State.writeW_fwd (s : State) (ws : Schedule) : (s.writeW ws).fwd = s.fwd := rfl
@[simp] theorem State.writeW_upc (s : State) (ws : Schedule) : (s.writeW ws).upc = s.upc := rfl
@[simp] theorem State.writeW_busy (s : State) (ws : Schedule) : (s.writeW ws).busy = s.busy := rfl
@[simp] theorem State.writeW_done (s : State) (ws : Schedule) : (s.writeW ws).done = s.done := rfl
@[simp] theorem State.writeW_ports (s : State) (ws : Schedule) : (s.writeW ws).ports = s.ports := rfl
@[simp] theorem State.writeW_subUnit (s : State) (ws : Schedule) : (s.writeW ws).subUnit = s.subUnit := rfl

@[simp] theorem State.invalidateSt_st (s : State) : s.invalidateSt.st = noBlock := rfl
@[simp] theorem State.invalidateSt_key (s : State) : s.invalidateSt.key = s.key := rfl
@[simp] theorem State.invalidateSt_w (s : State) : s.invalidateSt.w = s.w := rfl
@[simp] theorem State.invalidateSt_out (s : State) : s.invalidateSt.out = s.out := rfl
@[simp] theorem State.invalidateSt_fwd (s : State) : s.invalidateSt.fwd = s.fwd := rfl
@[simp] theorem State.invalidateSt_upc (s : State) : s.invalidateSt.upc = s.upc := rfl
@[simp] theorem State.invalidateSt_busy (s : State) : s.invalidateSt.busy = s.busy := rfl
@[simp] theorem State.invalidateSt_done (s : State) : s.invalidateSt.done = s.done := rfl
@[simp] theorem State.invalidateSt_ports (s : State) : s.invalidateSt.ports = s.ports := rfl
@[simp] theorem State.invalidateSt_subUnit (s : State) : s.invalidateSt.subUnit = s.subUnit := rfl

@[simp] theorem State.invalidateKey_st (s : State) : s.invalidateKey.st = s.st := rfl
@[simp] theorem State.invalidateKey_key (s : State) : s.invalidateKey.key = noBlock := rfl
@[simp] theorem State.invalidateKey_w (s : State) : s.invalidateKey.w = s.w := rfl
@[simp] theorem State.invalidateKey_out (s : State) : s.invalidateKey.out = s.out := rfl
@[simp] theorem State.invalidateKey_fwd (s : State) : s.invalidateKey.fwd = s.fwd := rfl
@[simp] theorem State.invalidateKey_upc (s : State) : s.invalidateKey.upc = s.upc := rfl
@[simp] theorem State.invalidateKey_busy (s : State) : s.invalidateKey.busy = s.busy := rfl
@[simp] theorem State.invalidateKey_done (s : State) : s.invalidateKey.done = s.done := rfl
@[simp] theorem State.invalidateKey_ports (s : State) : s.invalidateKey.ports = s.ports := rfl
@[simp] theorem State.invalidateKey_subUnit (s : State) : s.invalidateKey.subUnit = s.subUnit := rfl

@[simp] theorem State.invalidateW_st (s : State) : s.invalidateW.st = s.st := rfl
@[simp] theorem State.invalidateW_key (s : State) : s.invalidateW.key = s.key := rfl
@[simp] theorem State.invalidateW_w (s : State) : s.invalidateW.w = [] := rfl
@[simp] theorem State.invalidateW_out (s : State) : s.invalidateW.out = s.out := rfl
@[simp] theorem State.invalidateW_fwd (s : State) : s.invalidateW.fwd = s.fwd := rfl
@[simp] theorem State.invalidateW_upc (s : State) : s.invalidateW.upc = s.upc := rfl
@[simp] theorem State.invalidateW_busy (s : State) : s.invalidateW.busy = s.busy := rfl
@[simp] theorem State.invalidateW_done (s : State) : s.invalidateW.done = s.done := rfl
@[simp] theorem State.invalidateW_ports (s : State) : s.invalidateW.ports = s.ports := rfl
@[simp] theorem State.invalidateW_subUnit (s : State) : s.invalidateW.subUnit = s.subUnit := rfl

@[simp] theorem State.invalidateOut_st (s : State) : s.invalidateOut.st = s.st := rfl
@[simp] theorem State.invalidateOut_key (s : State) : s.invalidateOut.key = s.key := rfl
@[simp] theorem State.invalidateOut_w (s : State) : s.invalidateOut.w = s.w := rfl
@[simp] theorem State.invalidateOut_out (s : State) : s.invalidateOut.out = noBlock := rfl
@[simp] theorem State.invalidateOut_fwd (s : State) : s.invalidateOut.fwd = s.fwd := rfl
@[simp] theorem State.invalidateOut_upc (s : State) : s.invalidateOut.upc = s.upc := rfl
@[simp] theorem State.invalidateOut_busy (s : State) : s.invalidateOut.busy = s.busy := rfl
@[simp] theorem State.invalidateOut_done (s : State) : s.invalidateOut.done = s.done := rfl
@[simp] theorem State.invalidateOut_ports (s : State) : s.invalidateOut.ports = s.ports := rfl
@[simp] theorem State.invalidateOut_subUnit (s : State) : s.invalidateOut.subUnit = s.subUnit := rfl

@[simp] theorem State.setFwd_st (s : State) (d : Option Bool) : (s.setFwd d).st = s.st := rfl
@[simp] theorem State.setFwd_key (s : State) (d : Option Bool) : (s.setFwd d).key = s.key := rfl
@[simp] theorem State.setFwd_w (s : State) (d : Option Bool) : (s.setFwd d).w = s.w := rfl
@[simp] theorem State.setFwd_out (s : State) (d : Option Bool) : (s.setFwd d).out = s.out := rfl
@[simp] theorem State.setFwd_fwd (s : State) (d : Option Bool) : (s.setFwd d).fwd = d := rfl
@[simp] theorem State.setFwd_upc (s : State) (d : Option Bool) : (s.setFwd d).upc = s.upc := rfl
@[simp] theorem State.setFwd_busy (s : State) (d : Option Bool) : (s.setFwd d).busy = s.busy := rfl
@[simp] theorem State.setFwd_done (s : State) (d : Option Bool) : (s.setFwd d).done = s.done := rfl
@[simp] theorem State.setFwd_ports (s : State) (d : Option Bool) : (s.setFwd d).ports = s.ports := rfl
@[simp] theorem State.setFwd_subUnit (s : State) (d : Option Bool) : (s.setFwd d).subUnit = s.subUnit := rfl

@[simp] theorem State.setUpc_st (s : State) (t : BitVec 6) : (s.setUpc t).st = s.st := rfl
@[simp] theorem State.setUpc_key (s : State) (t : BitVec 6) : (s.setUpc t).key = s.key := rfl
@[simp] theorem State.setUpc_w (s : State) (t : BitVec 6) : (s.setUpc t).w = s.w := rfl
@[simp] theorem State.setUpc_out (s : State) (t : BitVec 6) : (s.setUpc t).out = s.out := rfl
@[simp] theorem State.setUpc_fwd (s : State) (t : BitVec 6) : (s.setUpc t).fwd = s.fwd := rfl
@[simp] theorem State.setUpc_upc (s : State) (t : BitVec 6) : (s.setUpc t).upc = t := rfl
@[simp] theorem State.setUpc_busy (s : State) (t : BitVec 6) : (s.setUpc t).busy = s.busy := rfl
@[simp] theorem State.setUpc_done (s : State) (t : BitVec 6) : (s.setUpc t).done = s.done := rfl
@[simp] theorem State.setUpc_ports (s : State) (t : BitVec 6) : (s.setUpc t).ports = s.ports := rfl
@[simp] theorem State.setUpc_subUnit (s : State) (t : BitVec 6) : (s.setUpc t).subUnit = s.subUnit := rfl

@[simp] theorem State.advance_st (s : State) : s.advance.st = s.st := rfl
@[simp] theorem State.advance_key (s : State) : s.advance.key = s.key := rfl
@[simp] theorem State.advance_w (s : State) : s.advance.w = s.w := rfl
@[simp] theorem State.advance_out (s : State) : s.advance.out = s.out := rfl
@[simp] theorem State.advance_fwd (s : State) : s.advance.fwd = s.fwd := rfl
@[simp] theorem State.advance_upc (s : State) : s.advance.upc = s.upc + 1#6 := rfl
@[simp] theorem State.advance_busy (s : State) : s.advance.busy = s.busy := rfl
@[simp] theorem State.advance_done (s : State) : s.advance.done = s.done := rfl
@[simp] theorem State.advance_ports (s : State) : s.advance.ports = s.ports := rfl
@[simp] theorem State.advance_subUnit (s : State) : s.advance.subUnit = s.subUnit := rfl

@[simp] theorem State.setFlags_st (s : State) (b d : Bool) : (s.setFlags b d).st = s.st := rfl
@[simp] theorem State.setFlags_key (s : State) (b d : Bool) : (s.setFlags b d).key = s.key := rfl
@[simp] theorem State.setFlags_w (s : State) (b d : Bool) : (s.setFlags b d).w = s.w := rfl
@[simp] theorem State.setFlags_out (s : State) (b d : Bool) : (s.setFlags b d).out = s.out := rfl
@[simp] theorem State.setFlags_fwd (s : State) (b d : Bool) : (s.setFlags b d).fwd = s.fwd := rfl
@[simp] theorem State.setFlags_upc (s : State) (b d : Bool) : (s.setFlags b d).upc = s.upc := rfl
@[simp] theorem State.setFlags_busy (s : State) (b d : Bool) : (s.setFlags b d).busy = b := rfl
@[simp] theorem State.setFlags_done (s : State) (b d : Bool) : (s.setFlags b d).done = d := rfl
@[simp] theorem State.setFlags_ports (s : State) (b d : Bool) : (s.setFlags b d).ports = s.ports := rfl
@[simp] theorem State.setFlags_subUnit (s : State) (b d : Bool) : (s.setFlags b d).subUnit = s.subUnit := rfl

@[simp] theorem State.flagsAccepted_st (s : State) : s.flagsAccepted.st = s.st := rfl
@[simp] theorem State.flagsAccepted_key (s : State) : s.flagsAccepted.key = s.key := rfl
@[simp] theorem State.flagsAccepted_w (s : State) : s.flagsAccepted.w = s.w := rfl
@[simp] theorem State.flagsAccepted_out (s : State) : s.flagsAccepted.out = s.out := rfl
@[simp] theorem State.flagsAccepted_fwd (s : State) : s.flagsAccepted.fwd = s.fwd := rfl
@[simp] theorem State.flagsAccepted_upc (s : State) : s.flagsAccepted.upc = s.upc := rfl
@[simp] theorem State.flagsAccepted_busy (s : State) : s.flagsAccepted.busy = true := rfl
@[simp] theorem State.flagsAccepted_done (s : State) : s.flagsAccepted.done = false := rfl
@[simp] theorem State.flagsAccepted_ports (s : State) : s.flagsAccepted.ports = s.ports := rfl
@[simp] theorem State.flagsAccepted_subUnit (s : State) : s.flagsAccepted.subUnit = s.subUnit := rfl

@[simp] theorem State.flagsCompleted_st (s : State) : s.flagsCompleted.st = s.st := rfl
@[simp] theorem State.flagsCompleted_key (s : State) : s.flagsCompleted.key = s.key := rfl
@[simp] theorem State.flagsCompleted_w (s : State) : s.flagsCompleted.w = s.w := rfl
@[simp] theorem State.flagsCompleted_out (s : State) : s.flagsCompleted.out = s.out := rfl
@[simp] theorem State.flagsCompleted_fwd (s : State) : s.flagsCompleted.fwd = s.fwd := rfl
@[simp] theorem State.flagsCompleted_upc (s : State) : s.flagsCompleted.upc = s.upc := rfl
@[simp] theorem State.flagsCompleted_busy (s : State) : s.flagsCompleted.busy = false := rfl
@[simp] theorem State.flagsCompleted_done (s : State) : s.flagsCompleted.done = true := rfl
@[simp] theorem State.flagsCompleted_ports (s : State) : s.flagsCompleted.ports = s.ports := rfl
@[simp] theorem State.flagsCompleted_subUnit (s : State) : s.flagsCompleted.subUnit = s.subUnit := rfl

@[simp] theorem State.drive_st (s : State) (p : Ports) : (s.drive p).st = s.st := rfl
@[simp] theorem State.drive_key (s : State) (p : Ports) : (s.drive p).key = s.key := rfl
@[simp] theorem State.drive_w (s : State) (p : Ports) : (s.drive p).w = s.w := rfl
@[simp] theorem State.drive_out (s : State) (p : Ports) : (s.drive p).out = s.out := rfl
@[simp] theorem State.drive_fwd (s : State) (p : Ports) : (s.drive p).fwd = s.fwd := rfl
@[simp] theorem State.drive_upc (s : State) (p : Ports) : (s.drive p).upc = s.upc := rfl
@[simp] theorem State.drive_busy (s : State) (p : Ports) : (s.drive p).busy = s.busy := rfl
@[simp] theorem State.drive_done (s : State) (p : Ports) : (s.drive p).done = s.done := rfl
@[simp] theorem State.drive_ports (s : State) (p : Ports) : (s.drive p).ports = p := rfl
@[simp] theorem State.drive_subUnit (s : State) (p : Ports) : (s.drive p).subUnit = s.subUnit := rfl

@[simp] theorem State.unitAnswers_st (s : State) (y : Byte) : (s.unitAnswers y).st = s.st := rfl
@[simp] theorem State.unitAnswers_key (s : State) (y : Byte) : (s.unitAnswers y).key = s.key := rfl
@[simp] theorem State.unitAnswers_w (s : State) (y : Byte) : (s.unitAnswers y).w = s.w := rfl
@[simp] theorem State.unitAnswers_out (s : State) (y : Byte) : (s.unitAnswers y).out = s.out := rfl
@[simp] theorem State.unitAnswers_fwd (s : State) (y : Byte) : (s.unitAnswers y).fwd = s.fwd := rfl
@[simp] theorem State.unitAnswers_upc (s : State) (y : Byte) : (s.unitAnswers y).upc = s.upc := rfl
@[simp] theorem State.unitAnswers_busy (s : State) (y : Byte) : (s.unitAnswers y).busy = s.busy := rfl
@[simp] theorem State.unitAnswers_done (s : State) (y : Byte) : (s.unitAnswers y).done = s.done := rfl
@[simp] theorem State.unitAnswers_ports (s : State) (y : Byte) : (s.unitAnswers y).ports = s.ports := rfl
@[simp] theorem State.unitAnswers_subUnit (s : State) (y : Byte) : (s.unitAnswers y).subUnit = ⟨s.subUnit.x, y⟩ := rfl

@[simp] theorem resetEvent_st (s : State) : (resetEvent s).st = noBlock := rfl
@[simp] theorem resetEvent_key (s : State) : (resetEvent s).key = noBlock := rfl
@[simp] theorem resetEvent_w (s : State) : (resetEvent s).w = [] := rfl
@[simp] theorem resetEvent_out (s : State) : (resetEvent s).out = noBlock := rfl
@[simp] theorem resetEvent_fwd (s : State) : (resetEvent s).fwd = none := rfl
@[simp] theorem resetEvent_upc (s : State) : (resetEvent s).upc = 0#6 := rfl
@[simp] theorem resetEvent_busy (s : State) : (resetEvent s).busy = false := rfl
@[simp] theorem resetEvent_done (s : State) : (resetEvent s).done = false := rfl
@[simp] theorem resetEvent_ports (s : State) : (resetEvent s).ports = s.ports := rfl
@[simp] theorem resetEvent_subUnit (s : State) : (resetEvent s).subUnit = s.subUnit := rfl

@[simp] theorem loadFrom_st (s : State) (d : Bool) : (loadFrom d s).st = holdBlock (unpack s.ports.cmdBlock) := rfl
@[simp] theorem loadFrom_key (s : State) (d : Bool) : (loadFrom d s).key = holdBlock (unpack s.ports.cmdKey) := rfl
@[simp] theorem loadFrom_w (s : State) (d : Bool) : (loadFrom d s).w = [] := rfl
@[simp] theorem loadFrom_out (s : State) (d : Bool) : (loadFrom d s).out = noBlock := rfl
@[simp] theorem loadFrom_fwd (s : State) (d : Bool) : (loadFrom d s).fwd = some d := rfl
@[simp] theorem loadFrom_upc (s : State) (d : Bool) : (loadFrom d s).upc = 1#6 := rfl
@[simp] theorem loadFrom_busy (s : State) (d : Bool) : (loadFrom d s).busy = true := rfl
@[simp] theorem loadFrom_done (s : State) (d : Bool) : (loadFrom d s).done = false := rfl
@[simp] theorem loadFrom_ports (s : State) (d : Bool) : (loadFrom d s).ports = s.ports := rfl
@[simp] theorem loadFrom_subUnit (s : State) (d : Bool) : (loadFrom d s).subUnit = s.subUnit := rfl

end Sys2Proof.Machine
end

