-- ==== Sys2Proof/Laws/Ops.lean ====
section
/-! SUPPORT. What each shared operation can do, said once: register reads, the round-transformation shape, `KEYEXP`, `STORE`,
the acceptance of a command, the fetch, and the cases of a step. -/

namespace Sys2Proof.Machine

/-! ## Register reads -/

@[simp] theorem getElem_holdBlock (b : Block) (i : Nat) (h : i < 16) : (holdBlock b)[i] = some b[i] := by
  simp [holdBlock]

@[simp] theorem getElem_noBlock (i : Nat) (h : i < 16) : noBlock[i] = none := by
  simp [noBlock]

theorem holds_holdBlock (b : Block) : Holds (holdBlock b) b := fun i => by simp

theorem holdsNothing_noBlock : HoldsNothing noBlock := fun i => by simp

/-- A whole register reads as a block exactly when its cells hold that block. -/
theorem readCells_eq_some_iff (r : BlockReg) (b : Block) : readCells r = some b ↔ Holds r b := by
  constructor
  · intro h i
    unfold readCells at h
    split at h
    · have hb : b = _ := (Option.some.inj h).symm
      subst hb
      simp
    · exact absurd h (by simp)
  · intro h
    have hall : ∀ i : Fin 16, (r[i]).isSome := fun i => by rw [h i]; rfl
    rw [readCells, dif_pos hall]
    congr 1
    apply Vector.ext
    intro i hi
    have := h ⟨i, hi⟩
    simp only [Fin.getElem_fin] at this
    simp [this]

theorem readCells_of_holds {r : BlockReg} {b : Block} (h : Holds r b) : readCells r = some b :=
  (readCells_eq_some_iff r b).2 h

@[simp] theorem readCells_holdBlock (b : Block) : readCells (holdBlock b) = some b :=
  readCells_of_holds (holds_holdBlock b)

/-- A register with a cell that holds `NOVALUE` does not read as a block. -/
theorem readCells_eq_none {r : BlockReg} (i : Fin 16) (h : r[i] = none) : readCells r = none := by
  rw [readCells, dif_neg]
  intro hall
  have := hall i
  rw [h] at this
  exact absurd this (by simp)

theorem holds_unique {r : BlockReg} {b c : Block} (hb : Holds r b) (hc : Holds r c) : b = c := by
  have := (readCells_of_holds hb).symm.trans (readCells_of_holds hc)
  exact Option.some.inj this

theorem withBlock_of_holds {r : BlockReg} {b : Block} (h : Holds r b)
    (k : Block → Host.Outcome State Fault Refusal) : withBlock r k = k b := by
  unfold withBlock
  rw [readCells_of_holds h]

theorem withBlock_of_noValue {r : BlockReg} (i : Fin 16) (h : r[i] = none)
    (k : Block → Host.Outcome State Fault Refusal) : withBlock r k = .fault .readNoValue := by
  unfold withBlock
  rw [readCells_eq_none i h]

/-- A read that goes on to a next state has read a block. -/
theorem withBlock_next {r : BlockReg} {k : Block → Host.Outcome State Fault Refusal} {t : State}
    (h : withBlock r k = .next t) : ∃ b, Holds r b ∧ k b = .next t := by
  unfold withBlock at h
  split at h
  · next b hb => exact ⟨b, (readCells_eq_some_iff r b).1 hb, h⟩
  · exact absurd h (by simp)

/-! ## The shared shapes of the meanings -/

theorem roundTransform_of_holds {s : State} {b : Block} (f : Block → Block) (h : Holds s.st b) :
    roundTransform f s = .next ((s.writeSt (f b)).advance) := by
  simp [roundTransform, withBlock_of_holds h]

/-- All a round transformation can do. -/
theorem roundTransform_next {f : Block → Block} {s t : State} (h : roundTransform f s = .next t) :
    ∃ b, Holds s.st b ∧ t = (s.writeSt (f b)).advance := by
  obtain ⟨b, hb, ht⟩ := withBlock_next h
  exact ⟨b, hb, by simpa using ht.symm⟩

/-- All `ARK r` can do. -/
theorem execArk_next {r : BitVec 4} {s t : State} (h : execArk r s = .next t) :
    r.toNat ≤ 10 ∧ ∃ k b, Holds (roundKeyCells s.w r.toNat) k ∧ Holds s.st b ∧
      t = (s.writeSt (addRoundKey b k)).advance := by
  unfold execArk at h
  split at h
  · next hr =>
    obtain ⟨k, hk, h2⟩ := withBlock_next h
    obtain ⟨b, hb, ht⟩ := roundTransform_next h2
    exact ⟨hr, k, b, hk, hb, ht⟩
  · exact absurd h (by simp)

/-- All `KEYEXP` can do. -/
theorem execKeyexp_next {s t : State} (h : execKeyexp s = .next t) :
    ∃ k, Holds s.key k ∧ t = (s.writeW (expandKey k)).advance := by
  obtain ⟨k, hk, ht⟩ := withBlock_next h
  exact ⟨k, hk, by simpa using ht.symm⟩

/-- All `STORE` can do. -/
theorem execStore_next {s t : State} (h : execStore s = .next t) :
    ∃ b, Holds s.st b ∧
      t = ((((s.writeOut b).invalidateSt.invalidateKey.invalidateW).flagsCompleted).setUpc 0#6) := by
  obtain ⟨b, hb, ht⟩ := withBlock_next h
  exact ⟨b, hb, by simpa using ht.symm⟩

/-- All `LOAD` can do. -/
theorem execLoad_next {s t : State} (h : execLoad s = .next t) :
    accepting s = true ∧ t = loadFrom s.ports.cmdFwd s := by
  unfold execLoad at h
  split at h
  · next ha => exact ⟨ha, by simpa using h.symm⟩
  · exact absurd h (by simp)

/-- All a command can do. -/
theorem offerCommand_next {d : Bool} {s t : State} (h : offerCommand d s = .next t) :
    (accepting s = true ∧ t = loadFrom d s) ∨ (accepting s = false ∧ t = s) := by
  unfold offerCommand at h
  cases ha : accepting s <;> simp [ha] at h <;> simp [h]

/-- The bytes of a schedule held in `W` as a round key. -/
theorem holds_roundKeyCells {m : Memory} {ws : Schedule} (h : ScheduleIn m ws) (r : Fin 11) :
    Holds (roundKeyCells m r) (roundKey ws r) := by
  intro k
  have := h ⟨4 * r.val + k.val / 4, by omega⟩ ⟨k.val % 4, by omega⟩
  simpa [roundKeyCells, roundKey] using this

/-! ## When the shared shapes go on -/

theorem execKeyexp_of_holds {s : State} {k : Block} (h : Holds s.key k) :
    execKeyexp s = .next ((s.writeW (expandKey k)).advance) := withBlock_of_holds h _

theorem execStore_of_holds {s : State} {b : Block} (h : Holds s.st b) :
    execStore s =
      .next ((((s.writeOut b).invalidateSt.invalidateKey.invalidateW).flagsCompleted).setUpc 0#6) :=
  withBlock_of_holds h _

theorem execArk_of_holds {s : State} {r : BitVec 4} {b k : Block} (hr : r.toNat ≤ 10)
    (hk : Holds (roundKeyCells s.w r.toNat) k) (hb : Holds s.st b) :
    execArk r s = .next ((s.writeSt (addRoundKey b k)).advance) := by
  rw [execArk, if_pos hr, withBlock_of_holds hk, roundTransform_of_holds _ hb]

/-- What `KEYEXP` leaves in `W`, by its readings and its form, so that no proof unfolds the 44 writes. -/
theorem writeWords_expandKey (m : Memory) (k : Block) :
    ∃ m', Memory.writeWords m 0 (expandKey k).toList = m' ∧ ScheduleIn m' (expandKey k) ∧ (m.wf = true → m'.wf = true) :=
  ⟨_, rfl, scheduleIn_writeW _ _, fun h => Memory.wf_writeWords _ _ _ h (by simp)⟩

theorem keyAndSchedule_iff {s : State} {e : Bool} : KeyAndSchedule s e = true ↔
    ∃ k, Holds s.key k ∧ (e = true → ScheduleIn s.w (expandKey k)) := by
  unfold KeyAndSchedule
  constructor
  · intro h
    split at h
    · next k hk => exact ⟨k, (readCells_eq_some_iff _ _).1 hk, by intro he; simpa [he] using h⟩
    · simp at h
  · rintro ⟨k, hk, h⟩
    rw [readCells_of_holds hk]
    cases e
    · simp
    · simpa using h rfl

/-! ## The cases of a step -/

theorem step_reset {s : State} (h : s.ports.resetReq = true) : step s = .next (resetEvent s) := by
  simp [step, h]

theorem step_idle {s : State} (hr : s.ports.resetReq = false) (hb : s.busy = false) (hv : s.ports.cmdValid = false) :
    step s = .next s := by
  simp [step, hr, hb, idleStep, hv]

theorem portCommand_exec (s : State) : exec (portCommand s) s = offerCommand s.ports.cmdFwd s := by
  cases h : s.ports.cmdFwd <;> simp [portCommand, decodeC, h, exec, execEncrypt, execDecrypt]

theorem step_accept {s : State} (hr : s.ports.resetReq = false) (hb : s.busy = false) (hv : s.ports.cmdValid = true) :
    step s = .next (loadFrom s.ports.cmdFwd s) := by
  simp [step, hr, hb, idleStep, hv, portCommand_exec, offerCommand, accepting, cmdReady]

theorem step_busy {s : State} (hr : s.ports.resetReq = false) (hb : s.busy = true) : step s = engineStep s := by
  simp [step, hr, hb]

theorem engineStep_of_fetch {s : State} {u : Byte} {i : Instr} (hf : fetch s = .ok u) (hd : decodeU u = .ok i) :
    engineStep s = exec i s := by
  simp [engineStep, hf, runWord, hd]

/-- A word of either micro-program behind index 0 decodes to one of these nine micro-operations. -/
theorem mprogWord_decodes (d : Bool) (upc : BitVec 6) (h1 : 1 ≤ upc.toNat) (h2 : upc.toNat ≤ 42) :
    ∃ u i, mprogWord d upc = some u ∧ decodeU u = .ok i ∧ i ≠ .load := by
  have key : ∀ (d : Bool) (upc : BitVec 6), 1 ≤ upc.toNat → upc.toNat ≤ 42 →
      ((mprogWord d upc).bind fun u => (decodeU u).toOption).any (fun i => decide (i ≠ .load)) = true := by decide
  have hk := key d upc h1 h2
  cases hw : mprogWord d upc with
  | none => simp [hw] at hk
  | some u =>
    cases hd : decodeU u with
    | error e => simp [hw, hd, Except.toOption] at hk
    | ok i => exact ⟨u, i, rfl, hd, by simpa [hw, hd, Except.toOption] using hk⟩

/-- Where the micro-programs hold which micro-operation: `STORE` at index 42 only, `LOAD` at 0 only, `KEYEXP` at 1 only, `ARK`
with a legal index. -/
theorem mprogWord_places : ∀ (d : Bool) (n : BitVec 6), (mprogWord d n).all (fun u => (decodeU u).toOption.all fun i =>
    (match i with
      | .encrypt | .decrypt | .sbox | .invsbox => false
      | .ark r => decide (r.toNat ≤ 10)
      | _ => true) &&
    (decide (i = .store) == decide (n.toNat = 42)) && (decide (i = .load) == decide (n.toNat = 0)) &&
      (decide (i = .keyexp) == decide (n.toNat = 1))) = true := by decide

/-- All a step can do: a reset, an idle stutter, an acceptance, or the micro-operation fetched. -/
theorem step_cases {s t : State} (h : step s = .next t) :
    (s.ports.resetReq = true ∧ t = resetEvent s) ∨
    (s.ports.resetReq = false ∧ s.busy = false ∧ s.ports.cmdValid = false ∧ t = s) ∨
    (s.ports.resetReq = false ∧ s.busy = false ∧ s.ports.cmdValid = true ∧ t = loadFrom s.ports.cmdFwd s) ∨
    (s.ports.resetReq = false ∧ s.busy = true ∧ ∃ d u i, s.fwd = some d ∧ mprogWord d s.upc = some u ∧
      decodeU u = .ok i ∧ exec i s = .next t) := by
  cases hr : s.ports.resetReq with
  | true => rw [step_reset hr] at h; exact .inl ⟨rfl, by simpa using h.symm⟩
  | false =>
    cases hb : s.busy with
    | false =>
      cases hv : s.ports.cmdValid with
      | false => rw [step_idle hr hb hv] at h; exact .inr (.inl ⟨rfl, rfl, rfl, by simpa using h.symm⟩)
      | true => rw [step_accept hr hb hv] at h; exact .inr (.inr (.inl ⟨rfl, rfl, rfl, by simpa using h.symm⟩))
    | true =>
      rw [step_busy hr hb] at h
      refine .inr (.inr (.inr ⟨rfl, rfl, ?_⟩))
      unfold engineStep fetch at h
      cases hf : s.fwd with
      | none => simp [hf] at h
      | some d =>
        cases hw : mprogWord d s.upc with
        | none => simp [hf, hw] at h
        | some u =>
          simp only [hf, hw, runWord] at h
          cases hd : decodeU u with
          | error e => simp [hd] at h
          | ok i => exact ⟨d, u, i, rfl, hw, hd, by simpa [hd] using h⟩

end Sys2Proof.Machine
end

