-- ==== Sys2Proof/Laws/Blocks.lean ====
section
/-! SUPPORT. Blocks on the 128-bit ports, and the key expansion word by word. -/

namespace Sys2Proof.Machine

/-! ## Packing -/

theorem extractLsb'_append_high {n m : Nat} (x : BitVec n) (y : BitVec m) (k : Nat) :
    (x ++ y).extractLsb' (k + m) 8 = x.extractLsb' k 8 := by
  apply BitVec.eq_of_getLsbD_eq
  intro j hj
  have h1 : ¬k + m + j < m := by omega
  have h2 : k + m + j - m = k + j := by omega
  simp only [BitVec.getLsbD_extractLsb', BitVec.getLsbD_append]
  simp [hj, h1, h2]

theorem extractLsb'_append_low {n : Nat} (x : BitVec n) (y : BitVec 8) : (x ++ y).extractLsb' 0 8 = y := by
  apply BitVec.eq_of_getLsbD_eq
  intro j hj
  simp [BitVec.getLsbD_append, hj]

/-- Byte `i` of the port value of a block is byte `i` of the block. -/
theorem portByte_pack (b : Block) (i : Fin 16) : portByte (pack b) i = b[i] := by
  unfold portByte pack
  fin_cases i
  · exact (extractLsb'_append_high _ _ 112).trans <| (extractLsb'_append_high _ _ 104).trans <|
      (extractLsb'_append_high _ _ 96).trans <| (extractLsb'_append_high _ _ 88).trans <|
      (extractLsb'_append_high _ _ 80).trans <| (extractLsb'_append_high _ _ 72).trans <|
      (extractLsb'_append_high _ _ 64).trans <| (extractLsb'_append_high _ _ 56).trans <|
      (extractLsb'_append_high _ _ 48).trans <| (extractLsb'_append_high _ _ 40).trans <|
      (extractLsb'_append_high _ _ 32).trans <| (extractLsb'_append_high _ _ 24).trans <|
      (extractLsb'_append_high _ _ 16).trans <| (extractLsb'_append_high _ _ 8).trans <|
      (extractLsb'_append_high _ _ 0).trans <| by simp
  all_goals repeat (first | exact extractLsb'_append_low _ _ | refine (extractLsb'_append_high _ _ _).trans ?_)

@[simp] theorem getElem_unpack (v : Bus) (i : Nat) (h : i < 16) : (unpack v)[i] = portByte v i := by
  simp [unpack]

/-! ## The MixColumns matrices -/

theorem getElem_rotatedRows (top : Vector Byte 4) (r j : Nat) (hr : r < 4) (hj : j < 4) :
    (rotatedRows top)[r][j] = top[(j + 4 - r) % 4]'(by omega) := by
  simp [rotatedRows]

/-! ## The key expansion -/

theorem getElem_expandKey (k : Block) (i : Nat) (h : i < 44) :
    (expandKey k)[i] = (expandList k)[i]'(by simp [expandList_length, h]) := rfl

/-- In the list of the four start words followed by the computed ones, word `k + 4` is word `k` XOR the `temp` of word
`k + 3`. -/
theorem getElem_scheduleFrom (n : Nat) : ∀ (i : Nat) (a b c d : Word4) (k : Nat) (hk : k < n),
    (a :: b :: c :: d :: scheduleFrom n i a b c d)[k + 4]'(by simp [scheduleFrom_length]; omega) =
      xorWord ((a :: b :: c :: d :: scheduleFrom n i a b c d)[k]'(by simp [scheduleFrom_length]; omega))
        (keyTemp (i + k)
          ((a :: b :: c :: d :: scheduleFrom n i a b c d)[k + 3]'(by simp [scheduleFrom_length]; omega))) := by
  induction n with
  | zero => intro i a b c d k hk; omega
  | succ n ih =>
    intro i a b c d k hk
    cases k with
    | zero => rfl
    | succ k =>
      have := ih (i + 1) b c d (xorWord a (keyTemp i d)) k (by omega)
      rw [show i + (k + 1) = i + 1 + k by omega]
      exact this

end Sys2Proof.Machine
end

