-- ==== Sys2Proof/Laws/Adapter.lean ====
section
/-! SUPPORT. What each part of an adapter call does in one step, so that no proof unfolds the call. -/

namespace Sys2Proof.Machine

theorem stepThen_of_next {s t : State} (h : step s = .next t) (k : State → CallOutcome) : stepThen s k = k t := by
  simp [stepThen, h]

/-- The awaited level is there: the call goes on without a step. -/
theorem waitThen_of_level {p : State → Bool} {s : State} (h : p s = true) (k : Continuation) (rs : List Bool) :
    waitThen p k rs s = k rs s := by
  cases rs <;> simp [waitThen, h]

/-- The awaited level is not there: one step without an offer. -/
theorem waitThen_step {p : State → Bool} {s t : State} {r : Bool} (h : p s = false) (ht : step (withdraw r s) = .next t)
    (k : Continuation) (rs : List Bool) : waitThen p k (r :: rs) s = waitThen p k rs t := by
  simp [waitThen, h, stepThen_of_next ht]

theorem waitThen_nil {p : State → Bool} {s : State} (h : p s = false) (k : Continuation) :
    waitThen p k [] s = .waiting s := by
  simp [waitThen, h]

/-- A ready engine accepts an offer in a step without a reset, and the call goes on. -/
theorem offerThen_accepted {s : State} (h : s.busy = false) (d : Bool) (b key : Block) (k : Continuation) (rs : List Bool) :
    offerThen d b key k (false :: rs) s = k rs (loadFrom d (offer d b key false s)) := by
  rw [offerThen, stepThen_of_next (step_accept (s := offer d b key false s) rfl h rfl)]
  rfl

/-- A reset takes a step of the offer, and the offer stays up. -/
theorem offerThen_reset (s : State) (d : Bool) (b key : Block) (k : Continuation) (rs : List Bool) :
    offerThen d b key k (true :: rs) s = offerThen d b key k rs (resetEvent (offer d b key true s)) := by
  rw [offerThen, stepThen_of_next (step_reset (s := offer d b key true s) rfl)]
  rfl

end Sys2Proof.Machine
end

