-- ==== Sys2Proof/Laws/PerInstr.lean ====
section
/-! SUPPORT. Per-instruction laws. `EncodesToRow`: the encoding of a legal instruction has the bits its row of
`spec/opcode_table.json` gives it (`match` under `mask`), and an operand stands where the row's `fields` put it. -/

namespace Sys2Proof.Laws.EncodesToRow

/-- The bits of an encoded word, as a byte. -/
def bits : Encoded → BitVec 8
  | .c f => f.setWidth 8
  | .u w => w
  | .s f => f.setWidth 8

/-- The bits of the row of an instruction, its operand field filled in. -/
def row : Instr → BitVec 8
  | .decrypt => 0x00#8
  | .encrypt => 0x01#8
  | .load => 0x20#8
  | .keyexp => 0x40#8
  | .ark r => 0x60#8 ||| r.setWidth 8
  | .invsub => 0x80#8
  | .sub => 0x90#8
  | .invshr => 0xa0#8
  | .shr => 0xb0#8
  | .invmix => 0xc0#8
  | .mix => 0xd0#8
  | .store => 0xe0#8
  | .invsbox => 0x00#8
  | .sbox => 0x01#8

/-- A legal instruction encodes to the bits of its row. -/
def Statement (i : Instr) : Prop := i.wellFormed = true → bits (encode i) = row i

theorem decrypt : Statement .decrypt := fun _ => by decide
theorem encrypt : Statement .encrypt := fun _ => by decide
theorem load : Statement .load := fun _ => by decide
theorem keyexp : Statement .keyexp := fun _ => by decide
theorem ark (r : BitVec 4) : Statement (.ark r) := by unfold Statement; revert r; decide
theorem invsub : Statement .invsub := fun _ => by decide
theorem sub : Statement .sub := fun _ => by decide
theorem invshr : Statement .invshr := fun _ => by decide
theorem shr : Statement .shr := fun _ => by decide
theorem invmix : Statement .invmix := fun _ => by decide
theorem mix : Statement .mix := fun _ => by decide
theorem store : Statement .store := fun _ => by decide
theorem invsbox : Statement .invsbox := fun _ => by decide
theorem sbox : Statement .sbox := fun _ => by decide

end Sys2Proof.Laws.EncodesToRow
end

