-- ==== Sys2Proof/Tests/Slice0.lean ====
section
/-! SUPPORT. Tests. Expected values are those of the spec: the worked examples of the instruction rules and the vectors of
`95_test_vectors.md`; each test names its source. Then the witnesses: for every statement with hypotheses, states and
operands that meet them together. -/

namespace Sys2Proof.Tests

open Sys2Proof Sys2Proof.Machine

/-! ## Small states -/

/-- The key of the known-answer vector (E1). -/
def katKey : Bus := 0x000102030405060708090a0b0c0d0e0f#128

/-- The plaintext of the known-answer vector (E1). -/
def katText : Bus := 0x00112233445566778899aabbccddeeff#128

/-- An engine in an operation of direction `d`, about to run index `n`, with State `b` and the key of E1, `W` empty. -/
def inOp (d : Bool) (n : Nat) (b : Bus) : State :=
  { State.reset with
    st := holdBlock (unpack b), key := holdBlock (unpack katKey), fwd := some d, upc := BitVec.ofNat 6 n, busy := true }

/-- The same, with one round key in `W`. -/
def withRoundKey (s : State) (r : Nat) (k : Bus) : State :=
  { s with w := (List.range 16).map fun j => (16 * r + j, portByte k j) }

/-- Ports that offer a command with the block and key of E1. -/
def offerKat (d : Bool) : Ports :=
  { cmdValid := true, cmdFwd := d, cmdBlock := katText, cmdKey := katKey, resetReq := false }

/-- Ports that request a reset. -/
def askReset : Ports := { Ports.quiet with resetReq := true }

/-- An idle engine that shows a result. -/
def showing (b : Bus) : State := { State.reset with out := holdBlock (unpack b), fwd := some true, done := true }

/-- `ST` after one step, with `UPC`. -/
def stAfter (s : State) : Option (BlockReg × BitVec 6) := (nextOf (step s)).map fun t => (t.st, t.upc)

/-! ## Well-formedness: the one range condition (R86) -/

theorem test_ark_11_is_ill_formed : Instr.wellFormed (.ark 11) = false := by decide
theorem test_ark_15_is_ill_formed : Instr.wellFormed (.ark 15) = false := by decide
theorem test_ark_10_is_well_formed : Instr.wellFormed (.ark 10) = true := by decide
theorem test_the_others_are_well_formed :
    ([.decrypt, .encrypt, .load, .keyexp, .invsub, .sub, .invshr, .shr, .invmix, .mix, .store, .invsbox,
      .sbox] : List Instr).all Instr.wellFormed = true := by decide

/-! ## Decoding: words written out from the encodings of `30_encoding.md` (R82, R88, R89) -/

theorem test_decode_decrypt : decode (.c 0b0#1) = .ok .decrypt := by decide
theorem test_decode_encrypt : decode (.c 0b1#1) = .ok .encrypt := by decide
theorem test_decode_load : decode (.u 0b00100000#8) = .ok .load := by decide
theorem test_decode_keyexp : decode (.u 0b01000000#8) = .ok .keyexp := by decide
theorem test_decode_ark : decode (.u 0b01101001#8) = .ok (.ark 9#4) := by decide
theorem test_decode_invsub : decode (.u 0b10000000#8) = .ok .invsub := by decide
theorem test_decode_sub : decode (.u 0b10010000#8) = .ok .sub := by decide
theorem test_decode_invshr : decode (.u 0b10100000#8) = .ok .invshr := by decide
theorem test_decode_shr : decode (.u 0b10110000#8) = .ok .shr := by decide
theorem test_decode_invmix : decode (.u 0b11000000#8) = .ok .invmix := by decide
theorem test_decode_mix : decode (.u 0b11010000#8) = .ok .mix := by decide
theorem test_decode_store : decode (.u 0b11100000#8) = .ok .store := by decide
theorem test_decode_invsbox : decode (.s 0b0#1) = .ok .invsbox := by decide
theorem test_decode_sbox : decode (.s 0b1#1) = .ok .sbox := by decide

/-- V60: words just outside the map. -/
theorem test_decode_illegal : ([0x00, 0x1f, 0x21, 0x30, 0x50, 0x6b, 0x6f, 0x70, 0x81, 0x91, 0xa8, 0xbf, 0xcf, 0xd1, 0xe1,
    0xff] : List Byte).all (fun u => decide (decodeU u = .error (.illegalMicroOp u))) = true := by decide

/-- The numbers of the opcode table, format by format (the one-bit numbers read as commands, assumption log 8). -/
theorem test_table_words : [0x00, 0x01, 0x20, 0x40, 0x60, 0x6a, 0x80, 0x90, 0xa0, 0xb0, 0xc0, 0xd0, 0xe0].map
      (decodeTableWord 8) =
    [some .decrypt, some .encrypt, some .load, some .keyexp, some (.ark 0), some (.ark 10), some .invsub, some .sub,
      some .invshr, some .shr, some .invmix, some .mix, some .store] := by decide

theorem test_table_word_illegal : decodeTableWord 8 0x6b = none ∧ decodeTableWord 8 0x02 = none := by decide

/-! ## The host's placing: the very next step runs the row's instruction -/

/-- What a placed word does to `UPC` and the flags, as `10_state.md` R27, R29 and R30 say. -/
def placed (w : Nat) : Option (Option Bool × Nat × Bool × Bool) :=
  (nextOf (step (State.reset.withFetchWord 8 w))).map fun t => (t.fwd, t.upc.toNat, t.busy, t.done)

theorem test_placed_decrypt : placed 0x00 = some (some false, 1, true, false) := by decide
theorem test_placed_encrypt : placed 0x01 = some (some true, 1, true, false) := by decide
theorem test_placed_load : placed 0x20 = some (some false, 1, true, false) := by decide
theorem test_placed_keyexp_ark_store : [0x40, 0x60, 0x61, 0x6a, 0xe0].map placed =
    [some (some true, 2, true, false), some (some true, 3, true, false), some (some true, 7, true, false),
      some (some true, 42, true, false), some (some true, 0, false, true)] := by decide +kernel
theorem test_placed_rounds : [0x90, 0xb0, 0xd0, 0xa0, 0x80, 0xc0].map placed =
    [some (some true, 4, true, false), some (some true, 5, true, false), some (some true, 6, true, false),
      some (some false, 4, true, false), some (some false, 5, true, false), some (some false, 7, true, false)] := by
  decide +kernel

/-! ## One step of each instruction -/

/-- R160, R165, P1: the acceptance of `ENCRYPT`. -/
theorem test_encrypt : (nextOf (step (State.reset.drive (offerKat true)))).map
      (fun t => (t.fwd, t.st[5], t.key[15], t.upc, t.busy, t.done)) =
    some (some true, some 0x55, some 0x0f, 1, true, false) := by decide +kernel

/-- R161, R165, P2: the acceptance of `DECRYPT`. -/
theorem test_decrypt : (nextOf (step (State.reset.drive (offerKat false)))).map
      (fun t => (t.fwd, t.st[12], t.key[1], t.upc, t.busy, t.done)) =
    some (some false, some 0xcc, some 0x01, 1, true, false) := by decide +kernel

/-- R165: `LOAD` discards a result and an old schedule. -/
theorem test_load_discards : (nextOf (exec .load
      ((withRoundKey (showing 0x69c4e0d86a7b0430d8cdb78070b4c55a#128) 3 katKey).drive (offerKat true)))).map
      (fun t => (t.out[0], t.w.read 48, t.st[15], t.done)) = some (none, none, some 0xff, false) := by decide +kernel

/-- V20: `W[4] = d6aa74fd`, `W[43] = 4d2b30c5`. -/
theorem test_keyexp : (nextOf (step (inOp true 1 katText))).map
      (fun t => ([16, 17, 18, 19, 172, 173, 174, 175].map t.w.read, t.upc)) =
    some ([some 0xd6, some 0xaa, some 0x74, some 0xfd, some 0x4d, some 0x2b, some 0x30, some 0xc5], 2) := by
  decide +kernel

/-- R151: `ARK 1`, and `ARK 0` at index 41 of the decrypt micro-program. -/
theorem test_ark :
    stAfter (withRoundKey (inOp true 6 0x5f72641557f5bc92f7be3b291db9f91a) 1 0xd6aa74fdd2af72fadaa678f1d6ab76fe) =
      some (holdBlock (unpack 0x89d810e8855ace682d1843d8cb128fe4), 7) ∧
    stAfter (withRoundKey (inOp false 41 katText) 0 katKey) =
      some (holdBlock (unpack 0x00102030405060708090a0b0c0d0e0f0), 42) := by decide +kernel

/-- R140, R141. -/
theorem test_sub_invsub :
    stAfter (inOp true 3 0x00102030405060708090a0b0c0d0e0f0) =
      some (holdBlock (unpack 0x63cab7040953d051cd60e0e7ba70e18c), 4) ∧
    stAfter (inOp false 4 0x63cab7040953d051cd60e0e7ba70e18c) =
      some (holdBlock (unpack 0x00102030405060708090a0b0c0d0e0f0), 5) := by decide +kernel

/-- R142, R143. -/
theorem test_shr_invshr :
    stAfter (inOp true 4 0x63cab7040953d051cd60e0e7ba70e18c) =
      some (holdBlock (unpack 0x6353e08c0960e104cd70b751bacad0e7), 5) ∧
    stAfter (inOp false 3 0x6353e08c0960e104cd70b751bacad0e7) =
      some (holdBlock (unpack 0x63cab7040953d051cd60e0e7ba70e18c), 4) := by decide +kernel

/-- R146, R148. -/
theorem test_mix_invmix :
    stAfter (inOp true 5 0x6353e08c0960e104cd70b751bacad0e7) =
      some (holdBlock (unpack 0x5f72641557f5bc92f7be3b291db9f91a), 6) ∧
    stAfter (inOp false 6 0x5f72641557f5bc92f7be3b291db9f91a) =
      some (holdBlock (unpack 0x6353e08c0960e104cd70b751bacad0e7), 7) := by decide +kernel

/-- R175. -/
theorem test_store : (nextOf (step (inOp true 42 0x69c4e0d86a7b0430d8cdb78070b4c55a))).map
      (fun t => (observe t, t.st[0], t.key[0], t.upc)) =
    some (⟨true, false, true, some 0x69c4e0d86a7b0430d8cdb78070b4c55a⟩, none, none, 0) := by decide +kernel

/-- R110: the worked example, both selections. -/
theorem test_sbox : (nextOf (exec .sbox { State.reset with subUnit := ⟨0x53, 0⟩ })).map (·.subUnit.y) = some 0xed := by
  decide
theorem test_invsbox : (nextOf (exec .invsbox { State.reset with subUnit := ⟨0xed, 0⟩ })).map (·.subUnit.y) = some 0x53 := by
  decide

/-! ## Faults, reset, tables, text -/

/-- R14: a State of `NOVALUE` is not read. -/
theorem test_sub_of_novalue : faultOf (exec .sub State.reset) = some .readNoValue := by decide
/-- U11: a fetch behind the last index. -/
theorem test_fetch_out_of_range : faultOf (step (inOp true 43 0)) = some .fetchOutOfRange := by decide
/-- R90: an illegal word. -/
theorem test_illegal_word : faultOf (runWord 0x6b State.reset) = some .illegalMicroOp := by decide
/-- R240: a reset wins over a busy step. -/
theorem test_reset_event : nextOf (step ((inOp true 3 katText).drive askReset)) = some (State.reset.drive askReset) := by
  decide
/-- R123. -/
theorem test_gf_multiply : gfMultiply 0xff 0xff = 0x13 ∧ gfMultiply 0x53 0xca = 0x01 := by decide
/-- R28: the round counter is the round index of the `ARK` at that place. -/
theorem test_rnd : (List.range 43).all (fun n => [true, false].all fun d =>
    match uopAt d n with
    | some (.ok (.ark r)) => decide (rnd d n = r.toNat)
    | _ => true) = true := by decide
/-- R93. -/
theorem test_listing : listingLine true 6#6 = some "06: 61  ARK 1" := by decide
/-- R93: the example of a command line. -/
theorem test_command_line : commandLine true (unpack katText) (unpack katKey) =
    "ENCRYPT 00112233445566778899aabbccddeeff, 000102030405060708090a0b0c0d0e0f" := by decide
/-- R192, R193, V50: text is decoded high nibble first, whatever the case, and encoded in lower case. -/
theorem test_text : (hexDecodeBlock "00112233445566778899AABBCCDDEEFF".toList).map hexEncodeBlock =
    some "00112233445566778899aabbccddeeff".toList := by decide
/-- R192, V50: the first character of a pair is the high nibble, in either case. -/
theorem test_hex_nibbles : (hexDecodeBlock "69C4e0d86a7b0430d8cdb78070b4c55a".toList).map (fun b => (b[0], b[1], b[15])) =
    some (0x69, 0xc4, 0x5a) := by decide
/-- R214: the length decides before the characters. -/
theorem test_validate : validate "0g".toList "".toList = .error .invalidInputLength ∧
    validate (List.replicate 32 'g') (List.replicate 32 '0') = .error .invalidHexCharacter := by decide

/-- R94: `ROUND 10` is no pseudo-instruction. -/
theorem test_round_10 : expandPseudo (.round 10) = none ∧ expandPseudo (.invRound 0) = none := by decide

/-- What the adapter shows on the ports after a call that has not ended. -/
def stillWaiting (o : CallOutcome) : Option (Bool × Bool × Bool) :=
  match o with
  | .waiting s => some (s.ports.cmdValid, s.busy, s.done)
  | _ => none

/-- R196, R240: a reset takes two steps of the offer, and the offer is still up. -/
theorem test_offer_stays_up :
    stillWaiting (runCommand true (unpack katText) (unpack katKey) [true, true] State.reset) = some (true, false, false) := by
  decide

/-- R196, R174: the reset released, the command is accepted. -/
theorem test_offer_until_accepted :
    stillWaiting (runCommand true (unpack katText) (unpack katKey) [true, true, false] State.reset) =
      some (true, true, false) := by decide

/-! ## Witnesses: states and operands that meet the hypotheses of a statement together

Where a statement quantifies over states that hold a block, one small state per instruction is enough; where it has
clauses, each clause has its own line, at a boundary of its range. -/

/-- The block the round-transformation witnesses hold. -/
def someBlock : Block := unpack 0x00102030405060708090a0b0c0d0e0f0#128

theorem inOp_holds (d : Bool) (n : Nat) (b : Bus) : Holds (inOp d n b).st (unpack b) := holds_holdBlock _
theorem inOp_key (d : Bool) (n : Nat) (b : Bus) : Holds (inOp d n b).key (unpack katKey) := holds_holdBlock _

/-- The ports of a run of 42 steps after an acceptance, a new command offered in every one of them. -/
def offers42 : List Ports := List.replicate 42 (offerKat false)

theorem offers42_no_reset : ∀ q ∈ offers42, q.resetReq = false := by
  intro q hq
  rw [List.eq_of_mem_replicate hq]
  rfl

theorem witness_DecodeInvertsEncode : Instr.wellFormed (.ark 10) = true ∧ decode (.u 0x6a) = .ok (.ark 10) := by decide

theorem witness_IllegalWordsFault : decodeU 0x6b = .error (.illegalMicroOp 0x6b) ∧ mprogWord true 42 = some 0xe0 ∧
    decodeU 0x60 = .ok (.ark 0) ∧ (∃ t, runWord 0x90 (inOp true 3 0) = .next t) ∧
    (∃ t, runWord 0xe0 (inOp true 42 0) = .next t) ∧ ∃ t, runWord 0x20 (State.reset.drive (offerKat true)) = .next t :=
  ⟨by decide, by decide, by decide, ⟨_, roundTransform_of_holds _ (inOp_holds true 3 0)⟩,
    ⟨_, execStore_of_holds (inOp_holds true 42 0)⟩, _, rfl⟩

theorem witness_MicroProgramsFollowThePipelines : 1 ≤ (1 : Fin 10).val ∧ 1 ≤ (9 : Fin 10).val := by decide

theorem witness_PseudoInstructionsSpellThePrograms : 1 ≤ (1#4).toNat ∧ (9#4).toNat ≤ 9 ∧ (0#4).toNat = 0 ∧
    9 < (10#4).toNat := by decide

theorem witness_BusyStepRunsTheFetchedInstruction :
    (inOp true 42 katText).ports.resetReq = false ∧ (inOp true 42 katText).busy = true ∧
      (inOp true 42 katText).fwd = some true ∧ mprogWord true (inOp true 42 katText).upc = some 0xe0 ∧
      decodeU 0xe0 = .ok .store := by decide

theorem witness_ReadyStepRunsTheOfferedCommand :
    (State.reset.drive (offerKat true)).ports.resetReq = false ∧ (State.reset.drive (offerKat true)).busy = false ∧
      (State.reset.drive (offerKat true)).ports.cmdValid = true ∧ State.reset.ports.resetReq = false ∧
      State.reset.busy = false ∧ State.reset.ports.cmdValid = false := by decide

theorem witness_ResetEventClearsTheEngine : ((inOp true 42 katText).drive askReset).ports.resetReq = true := by decide

theorem witness_ResetAbandonsAndDiscards :
    askReset.resetReq = true ∧ (∀ q ∈ [Ports.quiet, askReset], q.cmdValid = false) ∧
      ∃ t, step ((showing katText).drive askReset) = .next t ∧ ((showing katText).drive askReset).done = true ∧
        t.done = false := ⟨rfl, by decide, _, rfl, rfl, rfl⟩

theorem witness_EncryptIsAcceptedWhenReady :
    ((showing katText).drive (offerKat true)).ports.cmdValid = true ∧ ((showing katText).drive (offerKat true)).busy = false :=
  by decide

theorem witness_DecryptIsAcceptedWhenReady :
    ((showing katText).drive (offerKat false)).ports.cmdValid = true ∧
      ((showing katText).drive (offerKat false)).busy = false := by decide

theorem witness_CommandsAreAcceptedOnlyWhenReady :
    ((showing katText).drive (offerKat true)).ports.cmdValid = true ∧ cmdReady ((showing katText).drive (offerKat true)) = true ∧
      ((showing katText).drive (offerKat true)).ports.cmdFwd = true ∧
      ((showing katText).drive (offerKat true)).ports.resetReq = false ∧ (offerKat false).resetReq = false ∧
      ∃ t, step ((inOp true 3 katText).drive (offerKat false)) = .next t ∧
        ((inOp true 3 katText).drive (offerKat false)).ports.resetReq = false ∧
        ((inOp true 3 katText).drive (offerKat false)).busy = true ∧
        cmdReady ((inOp true 3 katText).drive (offerKat false)) = false :=
  ⟨rfl, rfl, rfl, rfl, rfl, _, roundTransform_of_holds _ (inOp_holds true 3 katText), rfl, rfl, rfl⟩

theorem witness_LoadLatchesThePorts :
    (State.reset.drive (offerKat true)).busy = false ∧ (State.reset.drive (offerKat true)).ports.cmdValid = true ∧
      (State.reset.drive (offerKat true)).ports.cmdBlock = 0x00112233445566778899aabbccddeeff#128 ∧
      ∃ t, exec .load (State.reset.drive (offerKat true)) = .next t := ⟨rfl, rfl, rfl, _, rfl⟩

theorem witness_LoadOutsideAcceptanceFaults : (inOp true 1 katText).busy = true ∧ State.reset.ports.cmdValid = false := by
  decide

theorem witness_StoreDeliversTheState :
    Holds (inOp true 42 0x69c4e0d86a7b0430d8cdb78070b4c55a#128).st (unpack 0x69c4e0d86a7b0430d8cdb78070b4c55a#128) ∧
      ∃ t, exec .store (inOp true 42 0x69c4e0d86a7b0430d8cdb78070b4c55a#128) = .next t :=
  ⟨inOp_holds _ _ _, _, execStore_of_holds (inOp_holds _ _ _)⟩

theorem witness_KeyexpWritesTheSchedule : Holds (inOp true 1 katText).key (unpack katKey) ∧ 176 ≤ 176 :=
  ⟨inOp_key _ _ _, by decide⟩

theorem witness_KeyExpansionRecurrence : 4 ≤ 4 ∧ 4 < 44 ∧ 4 ≤ 43 ∧ 43 < 44 := by decide

theorem witness_SubSubstitutesEveryByte :
    Holds (inOp true 3 0x00102030405060708090a0b0c0d0e0f0#128).st someBlock := inOp_holds _ _ _
theorem witness_InvsubSubstitutesEveryByte :
    Holds (inOp false 4 0x00102030405060708090a0b0c0d0e0f0#128).st someBlock := inOp_holds _ _ _

theorem witness_ShrRotatesRowsLeft : Holds (inOp true 4 0x00102030405060708090a0b0c0d0e0f0#128).st someBlock ∧
    ∀ r c : Fin 4, (unpack 0x01020304010203040102030401020304)[r.val + 4 * c.val]'(by omega) =
      (unpack 0x01020304010203040102030401020304)[r.val]'(by omega) := ⟨inOp_holds _ _ _, by decide⟩
theorem witness_InvshrRotatesRowsRight : Holds (inOp false 3 0x00102030405060708090a0b0c0d0e0f0#128).st someBlock ∧
    ∀ r c : Fin 4, (unpack 0x01020304010203040102030401020304)[r.val + 4 * c.val]'(by omega) =
      (unpack 0x01020304010203040102030401020304)[r.val]'(by omega) := ⟨inOp_holds _ _ _, by decide⟩

theorem witness_MixMultipliesEveryColumn : Holds (inOp true 5 0x00102030405060708090a0b0c0d0e0f0#128).st someBlock ∧
    2 < 3 ∧ (∀ r : Fin 4, (unpack 0x0102030407070707)[r.val + 4 * 3]'(by omega) = 0x07#8) ∧
    ∀ r : Fin 4, (unpack 0x010203040000000000000000ffffffff)[r.val + 4 * 3]'(by omega) =
      (unpack 0xffffffff)[r.val + 4 * 3]'(by omega) := ⟨inOp_holds _ _ _, by decide, by decide, by decide⟩
theorem witness_InvmixMultipliesEveryColumn : Holds (inOp false 6 0x00102030405060708090a0b0c0d0e0f0#128).st someBlock ∧
    (∀ r : Fin 4, (unpack 0x0102030407070707)[r.val + 4 * 3]'(by omega) = 0x07#8) ∧
    ∀ r : Fin 4, (unpack 0x010203040000000000000000ffffffff)[r.val + 4 * 3]'(by omega) =
      (unpack 0xffffffff)[r.val + 4 * 3]'(by omega) := ⟨inOp_holds _ _ _, by decide, by decide⟩

/-- Both ends of the range of `r`. -/
theorem witness_ArkXorsTheRoundKey : (0#4).toNat ≤ 10 ∧ (10#4).toNat ≤ 10 ∧
    Holds (withRoundKey (inOp true 2 katText) 0 katKey).st (unpack katText) ∧
    (∀ i : Fin 16, (withRoundKey (inOp true 2 katText) 0 katKey).w.read (wAddr (4 * 0 + i.val / 4) (i.val % 4)) =
      some (unpack katKey)[i]) ∧
    ∀ i : Fin 16, (withRoundKey (inOp true 41 katText) 10 katKey).w.read (wAddr (4 * 10 + i.val / 4) (i.val % 4)) =
      some (unpack katKey)[i] := ⟨by decide, by decide, inOp_holds true 2 katText, by decide, by decide⟩

theorem roundKey_held : Holds (roundKeyCells (withRoundKey (inOp true 41 katText) 10 katKey).w 10) (unpack katKey) := by
  decide

theorem witness_ArkTwiceRestoresTheState : (10#4).toNat ≤ 10 ∧
    Holds (withRoundKey (inOp true 41 katText) 10 katKey).st (unpack katText) ∧
    Holds (roundKeyCells (withRoundKey (inOp true 41 katText) 10 katKey).w (10#4).toNat) (unpack katKey) :=
  ⟨by decide, inOp_holds true 41 katText, roundKey_held⟩

theorem witness_RoundTransformationsReadAndWriteOnlyTheState :
    (∀ i ∈ [Instr.sub, .invsub, .shr, .invshr, .mix, .invmix], ∃ t, exec i (inOp true 3 katText) = .next t) ∧
    (∃ t, exec (.ark 10) (withRoundKey (inOp true 41 katText) 10 katKey) = .next t) ∧
    ((inOp true 3 katText).setFlags true true).st = (inOp true 3 katText).st := by
  refine ⟨?_, ⟨_, execArk_of_holds (by decide) roundKey_held (inOp_holds true 41 katText)⟩, rfl⟩
  intro i hi
  simp only [List.mem_cons, List.not_mem_nil, or_false] at hi
  rcases hi with rfl | rfl | rfl | rfl | rfl | rfl <;> exact ⟨_, roundTransform_of_holds _ (inOp_holds _ _ _)⟩

theorem witness_ReadOfNoValueFaults : State.reset.st[(15 : Fin 16)] = none ∧ State.reset.key[(15 : Fin 16)] = none ∧
    (10#4).toNat ≤ 10 ∧ State.reset.w.read (wAddr (4 * (10#4).toNat + 15 / 4) (15 % 4)) = none ∧ 10 < (11#4).toNat := by
  decide

theorem witness_ForwardBoxIsInverseThenAffine : (if (0x00#8) = 0x00 then (0x00#8) = 0x00 else gfMultiply 0 0 = 0x01) ∧
    (if (0x53#8) = 0x00 then (0xca#8) = 0x00 else gfMultiply 0x53 0xca = 0x01) := by decide

theorem witness_RoundConstantsAreDoublings : 1 ≤ (1 : Fin 10).val ∧ 1 ≤ (9 : Fin 10).val := by decide

theorem witness_MultiplierLaws : (0xff#8) ≠ 0x00 := by decide

theorem witness_SubstitutionCommutesWithRotation :
    (∃ t u, exec .sub (inOp true 3 katText) = .next t ∧ exec .shr t = .next u) ∧
      ∃ t u, exec .invshr (inOp false 3 katText) = .next t ∧ exec .invsub t = .next u :=
  ⟨⟨_, _, roundTransform_of_holds _ (inOp_holds _ _ _), roundTransform_of_holds _ (holds_holdBlock _)⟩,
    ⟨_, _, roundTransform_of_holds _ (inOp_holds _ _ _), roundTransform_of_holds _ (holds_holdBlock _)⟩⟩

theorem witness_EncryptOperationDelivers : (showing katText).busy = false ∧ (offerKat true).cmdValid = true ∧
    (offerKat true).cmdFwd = true ∧ (offerKat true).resetReq = false ∧ offers42.length = 42 ∧
    (∀ q ∈ offers42, q.resetReq = false) ∧ ∀ q ∈ [Ports.quiet], q.cmdValid = false ∧ q.resetReq = false :=
  ⟨rfl, rfl, rfl, rfl, by decide, offers42_no_reset, by decide⟩

theorem witness_DecryptOperationDelivers : (showing katText).busy = false ∧ (offerKat false).cmdValid = true ∧
    (offerKat false).cmdFwd = false ∧ (offerKat false).resetReq = false ∧ offers42.length = 42 ∧
    (∀ q ∈ offers42, q.resetReq = false) ∧ ∀ q ∈ [Ports.quiet], q.cmdValid = false ∧ q.resetReq = false :=
  ⟨rfl, rfl, rfl, rfl, by decide, offers42_no_reset, by decide⟩

/-- Both ends of the range of the length. -/
theorem witness_OperationTakesFortyTwoSteps : (showing katText).busy = false ∧ (offerKat true).cmdValid = true ∧
    (offerKat true).resetReq = false ∧ ([] : List Ports).length ≤ 42 ∧ offers42.length ≤ 42 ∧
    ∀ q ∈ offers42, q.resetReq = false := ⟨rfl, rfl, rfl, by decide, by decide, offers42_no_reset⟩

theorem witness_OperationsAreIndependent : State.reset.busy = false ∧ (showing katText).busy = false ∧
    (offerKat true).cmdValid = true ∧ (offerKat true).resetReq = false := by decide

/-- An operation behind `KEYEXP`, at the last index, meets the invariant. -/
def atStore : State := { inOp true 42 katText with w := Memory.writeWords [] 0 (expandKey (unpack katKey)).toList }

/-- An operation behind its acceptance, one about to run `STORE`, an engine that shows a result. -/
def smallStates : List State := [inOp true 1 katText, inOp true 1 0, atStore, showing katText]

theorem smallStates_inv : smallStates.all (fun s => decide s.Inv) = true := by decide +kernel

theorem inv_of_mem {s : State} (h : s ∈ smallStates) : s.Inv := of_decide_eq_true (List.all_eq_true.1 smallStates_inv s h)

theorem inOp_inv : (inOp true 1 katText).Inv := inv_of_mem (.head _)
theorem atStore_inv : atStore.Inv := inv_of_mem (.tail _ (.tail _ (.head _)))
theorem showing_inv : (showing katText).Inv := inv_of_mem (.tail _ (.tail _ (.tail _ (.head _))))

theorem keyexp_steps : ∃ t, step ((inOp true 1 katText).drive Ports.quiet) = .next t := by
  refine ⟨(((inOp true 1 katText).drive Ports.quiet).writeW (expandKey (unpack katKey))).advance, ?_⟩
  rw [step_busy (by decide) (by decide), engineStep_of_fetch (u := 0x40) (i := .keyexp) (by decide) (by decide)]
  exact execKeyexp_of_holds (inOp_key true 1 katText)

theorem atStore_steps : ∃ t, step (atStore.drive (offerKat false)) = .next t := by
  rw [step_busy (by rfl) (by rfl), engineStep_of_fetch (u := 0xe0) (i := .store) (by rfl) (by decide)]
  exact ⟨_, execStore_of_holds (inOp_holds true 42 katText)⟩

theorem witness_EveryStepKeepsTheInvariant : State.reset.Inv ∧ (inOp true 1 katText).Inv ∧ atStore.Inv ∧
    (showing katText).Inv ∧ (∃ t, step (State.reset.drive (offerKat true)) = .next t) ∧
    (∃ t, step ((inOp true 1 katText).drive Ports.quiet) = .next t) ∧
    ∃ t, step (atStore.drive (offerKat false)) = .next t :=
  ⟨by decide, inOp_inv, atStore_inv, showing_inv, ⟨_, rfl⟩, keyexp_steps, atStore_steps⟩

theorem witness_NoStepFaultsUnderTheInvariant : State.reset.Inv ∧ (inOp true 1 katText).Inv ∧ atStore.Inv ∧
    (showing katText).Inv := ⟨by decide, inOp_inv, atStore_inv, showing_inv⟩

/-- A reset, an acceptance, an idle step, a `STORE`, another micro-operation: each has a next state. -/
theorem witness_UpcMovesOnlyAsStated :
    (∃ t, step ((inOp true 3 katText).drive askReset) = .next t ∧ ((inOp true 3 katText).drive askReset).ports.resetReq = true) ∧
    (∃ t, step ((showing katText).drive (offerKat true)) = .next t ∧
      accepting ((showing katText).drive (offerKat true)) = true) ∧
    (∃ t, step State.reset = .next t ∧ State.reset.busy = false ∧ State.reset.ports.cmdValid = false) ∧
    (∃ t, step (inOp true 42 katText) = .next t ∧ fetch (inOp true 42 katText) = .ok 0xe0#8) ∧
    ∃ t, step (inOp true 3 katText) = .next t ∧ fetch (inOp true 3 katText) = .ok 0x90#8 :=
  ⟨⟨_, rfl, rfl⟩, ⟨_, rfl, rfl⟩, ⟨_, rfl, rfl, rfl⟩, ⟨_, execStore_of_holds (inOp_holds _ _ _), rfl⟩,
    ⟨_, roundTransform_of_holds _ (inOp_holds _ _ _), rfl⟩⟩

/-- The same five steps, with the premises about the flags and the result. -/
theorem witness_FlagsMoveOnlyAsStated :
    (∃ t, step ((showing katText).drive askReset) = .next t) ∧
    (∃ t, step ((showing katText).drive (offerKat true)) = .next t ∧
      accepting ((showing katText).drive (offerKat true)) = true) ∧
    (∃ t, step (inOp true 42 katText) = .next t ∧ (inOp true 42 katText).busy = true ∧
      fetch (inOp true 42 katText) = .ok 0xe0#8) ∧
    (∃ t, step (showing katText) = .next t ∧ accepting (showing katText) = false ∧ t.done = true ∧
      ¬((showing katText).busy = true ∧ (showing katText).done = true) ∧ ∃ B, Holds (showing katText).out B) :=
  ⟨⟨_, rfl⟩, ⟨_, rfl, rfl⟩, ⟨_, execStore_of_holds (inOp_holds _ _ _), rfl, rfl⟩,
    ⟨_, rfl, rfl, rfl, by decide, _, holds_holdBlock _⟩⟩

theorem witness_InstructionsWriteOnlyTheirRegisters :
    (∃ t, exec .sub (inOp true 3 katText) = .next t) ∧ (∃ t, exec .keyexp (inOp true 1 katText) = .next t) ∧
    (∃ t, exec .store (inOp true 42 katText) = .next t) ∧ (∃ t, exec .sbox State.reset = .next t) ∧
    (∃ t, exec .invsbox State.reset = .next t) ∧ ∃ t, exec .load (State.reset.drive (offerKat true)) = .next t :=
  ⟨⟨_, roundTransform_of_holds _ (inOp_holds _ _ _)⟩, ⟨_, execKeyexp_of_holds (inOp_key _ _ _)⟩,
    ⟨_, execStore_of_holds (inOp_holds _ _ _)⟩, ⟨_, rfl⟩, ⟨_, rfl⟩, ⟨_, rfl⟩⟩

theorem witness_ControlIsDataIndependent : (inOp true 1 katText).Inv ∧ (inOp true 1 0).Inv ∧
    SameControl (inOp true 1 katText) (inOp true 1 0) := ⟨inOp_inv, inv_of_mem (.tail _ (.head _)), rfl, rfl, rfl, rfl⟩

theorem witness_BusyEngineIgnoresTheCommandPorts : (inOp true 3 katText).busy = true ∧ (offerKat false).resetReq = false ∧
    Ports.quiet.resetReq = false ∧ ∃ t, step ((inOp true 3 katText).drive (offerKat false)) = .next t :=
  ⟨rfl, rfl, rfl, _, roundTransform_of_holds _ (inOp_holds true 3 katText)⟩

/-- By `STORE` and by a reset. -/
theorem witness_EndedOperationLeavesNoSecret :
    (∃ t, step (inOp true 42 katText) = .next t ∧ (inOp true 42 katText).busy = true ∧ t.busy = false) ∧
    ∃ t, step ((inOp true 3 katText).drive askReset) = .next t ∧ ((inOp true 3 katText).drive askReset).busy = true ∧
      t.busy = false :=
  ⟨⟨_, execStore_of_holds (inOp_holds _ _ _), rfl, rfl⟩, ⟨_, rfl, rfl, rfl⟩⟩

theorem witness_OutBlockShowsTheResult : State.reset.done = false ∧ State.reset.Inv ∧ (showing katText).done = true ∧
    (showing katText).Inv ∧ Holds (showing katText).out (unpack katText) :=
  ⟨rfl, by decide, rfl, showing_inv, holds_holdBlock _⟩

theorem witness_TextFormAndItsErrors : hexDecodeBlock "00112233445566778899aabbccddeeff".toList = some (unpack katText) ∧
    (List.replicate 32 'F').length = 32 ∧
    (∀ ch ∈ List.replicate 32 'F', hexval ch ≠ none) ∧
    validate (List.replicate 31 '0') (List.replicate 32 '0') = .error .invalidInputLength ∧
    validate (List.replicate 32 '0') (List.replicate 32 'g') = .error .invalidHexCharacter ∧
    validate (List.replicate 32 '0') (List.replicate 32 'F') = .ok () :=
  ⟨by decide, by decide, by intro ch h; rw [List.eq_of_mem_replicate h]; decide, by decide, by decide, by decide⟩

/-- From an idle engine and from one busy with an earlier command; at both ends of the range of `m`. -/
theorem witness_AdapterReturnsTheCipherText : State.reset.Inv ∧ cmdReady State.reset = true ∧
    (inOp true 1 katText).Inv ∧ 85 ≤ (List.replicate 85 false).length ∧ (∀ r ∈ List.replicate 85 false, r = false) ∧
    0 < 42 ∧ 41 < 42 ∧
    validate "00112233445566778899aabbccddeeff".toList "000102030405060708090a0b0c0d0e0f".toList = .ok () ∧
    hexDecodeBlock "00112233445566778899aabbccddeeff".toList = some (unpack katText) ∧
    hexDecodeBlock "000102030405060708090a0b0c0d0e0f".toList = some (unpack katKey) :=
  ⟨by decide, rfl, inOp_inv, by decide, fun _ h => List.eq_of_mem_replicate h, by decide, by decide, by decide,
    by decide, by decide⟩

end Sys2Proof.Tests
end

section
/-! The result port: what a read of `out_block` answers, and what the invariant says of `OUT` by the level of `DONE`. -/

namespace Sys2Proof.Machine

/-! ## The read of the result port -/

theorem readOutBlock_of_not_done {s : State} (h : s.done = false) : readOutBlock s = .error .readNoValue := by
  simp [readOutBlock, h]

theorem readOutBlock_of_holds {s : State} {b : Block} (hd : s.done = true) (hb : Holds s.out b) :
    readOutBlock s = .ok (pack b) := by
  simp [readOutBlock, hd, readCells_of_holds hb]

/-! ## `OUT` under the invariant -/

/-- Without a result `OUT` is empty, whether an operation is in progress or none is. -/
theorem State.Inv.holdsNothing_out {s : State} (h : s.Inv) (hd : s.done = false) : HoldsNothing s.out := by
  obtain ⟨-, hphase⟩ := h
  split at hphase
  · obtain ⟨-, -, -, -, -, -, -, hout⟩ := hphase
    exact hout
  · obtain ⟨-, -, -, -, hout⟩ := hphase
    simpa [hd] using hout

/-- `DONE` is 0 throughout an operation, so an engine that shows a result is between operations and `OUT` holds it. -/
theorem State.Inv.exists_holds_out {s : State} (h : s.Inv) (hd : s.done = true) : ∃ b : Block, Holds s.out b := by
  obtain ⟨-, hphase⟩ := h
  split at hphase
  · obtain ⟨hnot, -⟩ := hphase
    simp [hd] at hnot
  · obtain ⟨-, -, -, -, hout⟩ := hphase
    rw [if_pos hd] at hout
    obtain ⟨b, hb⟩ := Option.isSome_iff_exists.1 hout
    exact ⟨b, (readCells_eq_some_iff s.out b).1 hb⟩

/-- Settles O57: the port shows the packed cells of `OUT` (`portByte_pack`), and the invariant ties `OUT` to `DONE`. -/
theorem outBlockShowsTheResult : Obligations.OutBlockShowsTheResult := fun _ =>
  ⟨readOutBlock_of_not_done,
    fun S hd hS => ⟨pack S, readOutBlock_of_holds hd hS, portByte_pack S⟩,
    State.Inv.holdsNothing_out, State.Inv.exists_holds_out⟩

end Sys2Proof.Machine
end

section
/-! The round constants: multiplication by 2 is the doubling step, and each active round constant is its predecessor doubled. -/

namespace Sys2Proof.Machine

/-- Bit 1 is the only set bit of 2, so the multiplier accumulates `a` doubled once and nothing else. -/
theorem gfMultiply_two (a : Byte) : gfMultiply a 0x02 = xtime a := by
  simp [gfMultiply, gfStep]

/-- R115, for the indices whose successor is active too; the placeholder at index 0 stays outside. -/
theorem rcon_succ {k : Nat} (hpos : 1 ≤ k) (hlt : k < 10) : rcon (k + 1) = xtime (rcon k) := by
  interval_cases k <;> rfl

/-- Settles O33: the values are read off the table, and the doubling clause is `rcon_succ` with `xtime` as a product. -/
theorem roundConstantsAreDoublings : Obligations.RoundConstantsAreDoublings := by
  have hdouble (k : Fin 10) (hpos : 1 ≤ k.val) : rcon (k.val + 1) = gfMultiply (rcon k) 0x02 := by
    rw [gfMultiply_two, rcon_succ hpos k.isLt]
  exact ⟨rfl, rfl, hdouble, rfl, rfl⟩

end Sys2Proof.Machine
end

section
/-! The key schedule: what `KEYEXP` leaves in the memory space, and the key expansion word by word and byte by byte. -/

namespace Sys2Proof.Machine

/-! ## `KEYEXP` -/

theorem exec_keyexp_of_holds {s : State} {k : Block} (h : Holds s.key k) :
    exec .keyexp s = .next ((s.writeW (expandKey k)).advance) := execKeyexp_of_holds h

/-- A schedule fills the addresses 0..175 and no more. -/
theorem read_writeSchedule_above (m : Memory) (ws : Schedule) (a : Nat) (h : 176 ≤ a) :
    (Memory.writeWords m 0 ws.toList).read a = m.read a :=
  Memory.read_writeWords_above m 0 a ws.toList (by simpa using h)

/-- `KEYEXP` stands at index 1 of both micro-programs and nowhere else. -/
theorem mprogWord_eq_keyexp_iff : ∀ (d : Bool) (n : BitVec 6), mprogWord d n = some 0x40#8 ↔ n = 1#6 := by decide

/-- Settles O17: the next state is `(s.writeW (expandKey K)).advance`, whose frame is read off the laws of the updates. -/
theorem keyexpWritesTheSchedule : Obligations.KeyexpWritesTheSchedule := by
  refine ⟨rfl, mprogWord_eq_keyexp_iff, fun s K hK => ⟨_, exec_keyexp_of_holds hK, ?_⟩⟩
  rw [State.advance_w, State.writeW_w]
  exact ⟨scheduleIn_writeW s.w (expandKey K), read_writeSchedule_above s.w (expandKey K), by simp⟩

/-! ## The bytes of the word helpers -/

theorem getElem_column (b : Block) (c : Fin 4) (j : Nat) (h : j < 4) :
    (column b c)[j] = b[4 * c.val + j]'(by omega) := by
  simp [column]

theorem getElem_xorWord (a b : Word4) (j : Nat) (h : j < 4) : (xorWord a b)[j] = a[j] ^^^ b[j] := by
  simp [xorWord]

theorem getElem_subWord (t : Word4) (j : Nat) (h : j < 4) : (subWord t)[j] = substitute t[j] true := by
  simp [subWord]

theorem getElem_rotWord (t : Word4) (j : Nat) (h : j < 4) : (rotWord t)[j] = t[(j + 1) % 4]'(by omega) := by
  simp [rotWord]

theorem getElem_addRcon (t : Word4) (k j : Nat) (h : j < 4) :
    (addRcon t k)[j] = t[j] ^^^ (if j = 0 then rcon k else 0#8) := by
  interval_cases j <;> simp [addRcon]

/-- R133, the byte `j` of `temp`. -/
theorem getElem_keyTemp (i : Nat) (t : Word4) (j : Nat) (h : j < 4) :
    (keyTemp i t)[j] =
      if i % 4 = 0 then substitute (t[(j + 1) % 4]'(by omega)) true ^^^ (if j = 0 then rcon (i / 4) else 0#8)
      else t[j] := by
  unfold keyTemp
  split
  · rw [getElem_addRcon, getElem_subWord, getElem_rotWord]
  · rfl

/-! ## The words of the expansion -/

/-- R132: the schedule begins with the columns of the key. -/
theorem getElem_expandKey_start (K : Block) (c : Fin 4) : (expandKey K)[c.val] = column K c := by
  fin_cases c <;> rfl

/-- R133: every later word comes from the word four before it and the word just before it. -/
theorem getElem_expandKey_add_four (K : Block) (k : Nat) (h : k < 40) :
    (expandKey K)[k + 4] = xorWord (expandKey K)[k] (keyTemp (k + 4) (expandKey K)[k + 3]) := by
  have hword := getElem_scheduleFrom 40 4 (column K 0) (column K 1) (column K 2) (column K 3) k h
  rw [Nat.add_comm 4 k] at hword
  exact hword

/-! ## The round keys -/

theorem getElem_roundKey (ws : Schedule) (r : Fin 11) (k : Nat) (h : k < 16) :
    (roundKey ws r)[k] = (ws[4 * r.val + k / 4]'(by omega))[k % 4]'(by omega) := by
  simp [roundKey]

/-- R136: byte `k` of Round Key 0 is byte `k mod 4` of column `k div 4` of the key. -/
theorem roundKey_expandKey_zero (K : Block) : roundKey (expandKey K) 0 = K := by
  ext k hk : 1
  have hword : (expandKey K)[4 * (0 : Fin 11).val + k / 4]'(by simp; omega) = column K ⟨k / 4, by omega⟩ := by
    simpa using getElem_expandKey_start K ⟨k / 4, by omega⟩
  rw [getElem_roundKey, hword, getElem_column]
  simp only [Nat.div_add_mod]

/-- Settles O18, each clause by the lemma for its words; word `i` of the second is word `k + 4` with `k = i - 4`. -/
theorem keyExpansionRecurrence : Obligations.KeyExpansionRecurrence := by
  intro K
  refine ⟨fun c j => ?_, fun i h4 h44 j => ?_, fun r k => getElem_roundKey _ r k k.isLt, roundKey_expandKey_zero K⟩
  · rw [getElem_expandKey_start, Fin.getElem_fin, getElem_column]
    simp only [Nat.add_comm]
  · obtain ⟨k, rfl⟩ := Nat.exists_eq_add_of_le' h4
    simp only [Fin.getElem_fin, Nat.add_sub_cancel, Nat.reduceSubDiff,
      getElem_expandKey_add_four K k (by omega), getElem_xorWord, getElem_keyTemp]

end Sys2Proof.Machine
end

section
/-! The round transformations: their common effect, a block by rows and columns, and the bytes that `SUB`, `INVSUB`, `SHR` and
`INVSHR` leave in the State. -/

namespace Sys2Proof.Machine

/-! ## What the seven micro-operations share -/

/-- R156: writing `ST` and advancing `UPC` leaves all the rest as it was. -/
theorem onlyStAndUpc_writeSt_advance (s : State) (b : Block) : OnlyStAndUpc s (s.writeSt b).advance := by
  simp [OnlyStAndUpc]

/-- A round transformation of a State `S` leaves `f S` in `ST`, and has the frame of R156. -/
theorem roundTransform_effect (f : Block → Block) {s : State} {S : Block} (h : Holds s.st S) :
    ∃ t : State, roundTransform f s = .next t ∧ Holds t.st (f S) ∧ t.upc = s.upc + 1#6 ∧ OnlyStAndUpc s t :=
  ⟨_, roundTransform_of_holds f h, holds_holdBlock (f S), rfl, onlyStAndUpc_writeSt_advance s (f S)⟩

/-! ## Rows and columns of a block (R12) -/

/-- The byte at row `r`, column `c` of a block read as a matrix. -/
def byteAt (S : Block) (r c : Fin 4) : Byte := S[r.val + 4 * c.val]'(by omega)

/-- A block is fixed by its bytes at all rows and columns. -/
theorem block_ext {S T : Block} (h : ∀ r c : Fin 4, byteAt S r c = byteAt T r c) : S = T := by
  ext i hi : 1
  have hrc := h ⟨i % 4, by omega⟩ ⟨i / 4, by omega⟩
  simpa only [byteAt, Nat.mod_add_div] using hrc

theorem getElem_of_holds {reg : BlockReg} {S : Block} (h : Holds reg S) (r c : Fin 4) :
    reg[r.val + 4 * c.val]'(by omega) = some (byteAt S r c) := h ⟨r.val + 4 * c.val, by omega⟩

theorem mod_rowCol (r c : Fin 4) : (r.val + 4 * c.val) % 4 = r.val := by omega

theorem div_rowCol (r c : Fin 4) : (r.val + 4 * c.val) / 4 = c.val := by omega

/-! ## `SUB` and `INVSUB` -/

theorem getElem_subBytes (S : Block) (fwd : Bool) (i : Fin 16) : (subBytes S fwd)[i] = substitute S[i] fwd := by
  simp [subBytes]

/-- The forward box has no fixed point. -/
theorem substitute_forward_ne : ∀ x : Byte, substitute x true ≠ x := by decide

/-- The bytes of a substituted State in `ST`. -/
theorem holds_subBytes {r : BlockReg} {S : Block} {fwd : Bool} (h : Holds r (subBytes S fwd)) (i : Fin 16) :
    r[i] = some (substitute S[i] fwd) := by
  rw [h i, getElem_subBytes]

/-- Settles O20: the frame is that of every round transformation, and the bytes are those of `subBytes`. -/
theorem subSubstitutesEveryByte : Obligations.SubSubstitutesEveryByte := by
  refine ⟨rfl, fun s S hS => ?_, fun S i => ⟨getElem_subBytes S true i, ?_⟩, by decide, by decide⟩
  · obtain ⟨t, hexec, hst, hframe⟩ := roundTransform_effect (subBytes · true) hS
    exact ⟨t, hexec, holds_subBytes hst, hframe⟩
  · rw [getElem_subBytes]
    exact substitute_forward_ne S[i]

/-- Settles O21: as O20, through the inverse box. -/
theorem invsubSubstitutesEveryByte : Obligations.InvsubSubstitutesEveryByte := by
  refine ⟨rfl, fun s S hS => ?_, fun S => getElem_subBytes S false, by decide, by decide⟩
  obtain ⟨t, hexec, hst, hframe⟩ := roundTransform_effect (subBytes · false) hS
  exact ⟨t, hexec, holds_subBytes hst, hframe⟩

/-! ## `SHR` and `INVSHR` -/

/-- R142 and R143: row `r` shows at column `c` the old byte of the same row at column `shiftSource fwd r c`. -/
theorem byteAt_shiftRows (S : Block) (fwd : Bool) (r c : Fin 4) :
    byteAt (shiftRows S fwd) r c = byteAt S r ⟨shiftSource fwd r c, shiftSource_lt fwd r c⟩ := by
  simp only [byteAt, shiftRows, Vector.getElem_ofFn, mod_rowCol, div_rowCol]

theorem shiftSource_row_zero (fwd : Bool) (c : Fin 4) : shiftSource fwd 0 c = c.val := by
  cases fwd <;> simp [shiftSource]

/-- Rotating by two positions is the same to the left and to the right. -/
theorem shiftSource_row_two (c : Nat) : shiftSource true 2 c = shiftSource false 2 c := by
  simp [shiftSource]

/-- Row 0 is never shifted. -/
theorem shiftRows_row_zero (S : Block) (fwd : Bool) (c : Fin 4) :
    (shiftRows S fwd)[4 * c.val]'(by omega) = S[4 * c.val]'(by omega) := by
  have h := byteAt_shiftRows S fwd 0 c
  simpa only [byteAt, Fin.val_zero, Nat.zero_add, shiftSource_row_zero] using h

theorem shiftRows_row_two (S : Block) (c : Fin 4) : byteAt (shiftRows S true) 2 c = byteAt (shiftRows S false) 2 c := by
  simp only [byteAt_shiftRows, Fin.val_two, shiftSource_row_two]

/-- A State whose rows each hold one byte four times is not changed. -/
theorem shiftRows_of_equal_rows {S : Block} (h : ∀ r c : Fin 4, byteAt S r c = S[r.val]'(by omega)) (fwd : Bool) :
    shiftRows S fwd = S := by
  refine block_ext fun r c => ?_
  rw [byteAt_shiftRows, h, h]

/-- The bytes of a shifted State in `ST`. -/
theorem holds_shiftRows {reg : BlockReg} {S : Block} {fwd : Bool} (h : Holds reg (shiftRows S fwd)) (r c : Fin 4) :
    reg[r.val + 4 * c.val]'(by omega) = some (byteAt S r ⟨shiftSource fwd r c, shiftSource_lt fwd r c⟩) := by
  rw [getElem_of_holds h, byteAt_shiftRows]

/-- R142, flat form. -/
theorem shiftRows_forward_flat (S : Block) : shiftRows S true = #v[S[0], S[5], S[10], S[15], S[4], S[9], S[14], S[3], S[8],
    S[13], S[2], S[7], S[12], S[1], S[6], S[11]] := by
  refine block_ext fun r c => ?_
  rw [byteAt_shiftRows]
  fin_cases r <;> fin_cases c <;> rfl

/-- R143, flat form. -/
theorem shiftRows_inverse_flat (S : Block) : shiftRows S false = #v[S[0], S[13], S[10], S[7], S[4], S[1], S[14], S[11],
    S[8], S[5], S[2], S[15], S[12], S[9], S[6], S[3]] := by
  refine block_ext fun r c => ?_
  rw [byteAt_shiftRows]
  fin_cases r <;> fin_cases c <;> rfl

/-- Settles O22: `shiftSource true r c` is `(c + r) mod 4`. -/
theorem shrRotatesRowsLeft : Obligations.ShrRotatesRowsLeft := by
  refine ⟨rfl, fun s S hS => ?_, fun S => byteAt_shiftRows S true,
    fun S c => ⟨shiftRows_row_zero S true c, shiftRows_row_two S c⟩, fun S h => shiftRows_of_equal_rows h true,
    shiftRows_forward_flat, by decide⟩
  obtain ⟨t, hexec, hst, hframe⟩ := roundTransform_effect (shiftRows · true) hS
  exact ⟨t, hexec, holds_shiftRows hst, hframe⟩

/-- Settles O23: `shiftSource false r c` is `(c + 4 - r) mod 4`. -/
theorem invshrRotatesRowsRight : Obligations.InvshrRotatesRowsRight := by
  refine ⟨rfl, fun s S hS => ?_, fun S => byteAt_shiftRows S false,
    fun S c => ⟨shiftRows_row_zero S false c, (shiftRows_row_two S c).symm⟩, fun S h => shiftRows_of_equal_rows h false,
    shiftRows_inverse_flat, by decide⟩
  obtain ⟨t, hexec, hst, hframe⟩ := roundTransform_effect (shiftRows · false) hS
  exact ⟨t, hexec, holds_shiftRows hst, hframe⟩

end Sys2Proof.Machine
end

section
/-! `MIX` and `INVMIX`: the multiplier is additive in its first factor, so a matrix whose rows each add up to 1 keeps a column
of four equal bytes. -/

namespace Sys2Proof.Machine

/-! ## Additivity of the multiplier -/

/-- The byte that reduces both summands cancels. -/
theorem xor_xor_xor_cancel (x y p : Byte) : (x ^^^ p) ^^^ (y ^^^ p) = x ^^^ y := by
  calc (x ^^^ p) ^^^ (y ^^^ p) = (x ^^^ y) ^^^ (p ^^^ p) := by ac_rfl
    _ = x ^^^ y := by rw [BitVec.xor_self, BitVec.xor_zero]

theorem xtime_xor (a b : Byte) : xtime (a ^^^ b) = xtime a ^^^ xtime b := by
  unfold xtime
  rw [BitVec.getLsbD_xor, BitVec.shiftLeft_xor_distrib]
  cases a.getLsbD 7 <;> cases b.getLsbD 7
  · rfl
  · exact BitVec.xor_assoc ..
  · change a <<< 1 ^^^ b <<< 1 ^^^ 0x1b#8 = (a <<< 1 ^^^ 0x1b#8) ^^^ b <<< 1
    ac_rfl
  · exact (xor_xor_xor_cancel ..).symm

/-- Iterations of the multiplier on sums of accumulators and of operands give the sum of the accumulators. -/
theorem foldl_gfStep_xor (c : Byte) (ks : List Nat) (x y a b : Byte) :
    (ks.foldl (gfStep c) (x ^^^ y, a ^^^ b)).1 =
      (ks.foldl (gfStep c) (x, a)).1 ^^^ (ks.foldl (gfStep c) (y, b)).1 := by
  induction ks generalizing x y a b with
  | nil => rfl
  | cons k ks ih =>
    simp only [List.foldl_cons, gfStep, xtime_xor]
    split
    · rw [← ih]
      congr 3
      ac_rfl
    · exact ih ..

/-- R124, for the first factor. -/
theorem gfMultiply_xor_left (a b c : Byte) : gfMultiply (a ^^^ b) c = gfMultiply a c ^^^ gfMultiply b c :=
  foldl_gfStep_xor c _ 0 0 a b

theorem gfMultiply_one_left : ∀ v : Byte, gfMultiply 0x01#8 v = v := by decide

/-! ## The matrix product by row and column -/

/-- R146: row `r` of the product comes from row `r` of the matrix and the four bytes of the column. -/
theorem byteAt_matrixTimes (m : ByteMatrix) (S : Block) (r c : Fin 4) :
    byteAt (matrixTimes m S) r c =
      rowTimes m[r] (byteAt S 0 c) (byteAt S 1 c) (byteAt S 2 c) (byteAt S 3 c) := by
  simp only [byteAt, matrixTimes, Vector.getElem_ofFn, mod_rowCol, div_rowCol]
  simp [Nat.add_comm]

/-- A column of the product comes from the same column of the State alone. -/
theorem matrixTimes_congr_column (m : ByteMatrix) {S T : Block} {c : Fin 4}
    (h : ∀ r : Fin 4, byteAt S r c = byteAt T r c) (r : Fin 4) :
    byteAt (matrixTimes m S) r c = byteAt (matrixTimes m T) r c := by
  simp only [byteAt_matrixTimes, h]

/-- Each row of a matrix adds up to 1: the reason for the corner case of R146 and R148. -/
abbrev RowsAddUpToOne (m : ByteMatrix) : Prop := ∀ r : Fin 4, m[r][0] ^^^ m[r][1] ^^^ m[r][2] ^^^ m[r][3] = 0x01#8

theorem mixc_rowsAddUpToOne : RowsAddUpToOne mixc := by decide

theorem invmixc_rowsAddUpToOne : RowsAddUpToOne invmixc := by decide

/-- A row applied to four equal bytes multiplies them by the sum of the row. -/
theorem rowTimes_equal (row : Vector Byte 4) (v : Byte) :
    rowTimes row v v v v = gfMultiply (row[0] ^^^ row[1] ^^^ row[2] ^^^ row[3]) v := by
  simp only [rowTimes, gfMultiply_xor_left]

theorem matrixTimes_of_equal_column {m : ByteMatrix} (hm : RowsAddUpToOne m) {S : Block} {c : Fin 4} {v : Byte}
    (h : ∀ r : Fin 4, byteAt S r c = v) (r : Fin 4) : byteAt (matrixTimes m S) r c = v := by
  simp only [byteAt_matrixTimes, h]
  rw [rowTimes_equal, hm r, gfMultiply_one_left]

/-- R147 and R149: each row of a matrix made by rotation is the row above rotated right by one. -/
theorem rotatedRows_succ (top : Vector Byte 4) (r : Nat) (h : r < 3) (j : Fin 4) :
    (rotatedRows top)[r + 1][(j.val + 1) % 4]'(by omega) = (rotatedRows top)[r][j] := by
  simp only [Fin.getElem_fin, getElem_rotatedRows]
  congr 1
  omega

/-- The bytes of a State multiplied by a matrix, in `ST`. -/
theorem holds_matrixTimes {reg : BlockReg} {m : ByteMatrix} {S : Block} (h : Holds reg (matrixTimes m S)) (r c : Fin 4) :
    reg[r.val + 4 * c.val]'(by omega) =
      some (rowTimes m[r] (byteAt S 0 c) (byteAt S 1 c) (byteAt S 2 c) (byteAt S 3 c)) := by
  rw [getElem_of_holds h, byteAt_matrixTimes]

/-- Settles O24: `mixColumns` forward is the product with `mixc`. -/
theorem mixMultipliesEveryColumn : Obligations.MixMultipliesEveryColumn := by
  refine ⟨rfl, by decide, by decide, by decide, by decide, rotatedRows_succ _, fun s S hS => ?_,
    fun S c v h => matrixTimes_of_equal_column mixc_rowsAddUpToOne h, fun S T c h => matrixTimes_congr_column mixc h,
    by decide, by decide⟩
  obtain ⟨t, hexec, hst, hframe⟩ := roundTransform_effect (mixColumns · true) hS
  exact ⟨t, hexec, holds_matrixTimes hst, hframe⟩

/-- Settles O25: `mixColumns` inverse is the product with `invmixc`. -/
theorem invmixMultipliesEveryColumn : Obligations.InvmixMultipliesEveryColumn := by
  refine ⟨rfl, by decide, by decide, by decide, by decide, fun s S hS => ?_,
    fun S c v h => matrixTimes_of_equal_column invmixc_rowsAddUpToOne h,
    fun S T c h => matrixTimes_congr_column invmixc h, by decide, by decide⟩
  obtain ⟨t, hexec, hst, hframe⟩ := roundTransform_effect (mixColumns · false) hS
  exact ⟨t, hexec, holds_matrixTimes hst, hframe⟩

end Sys2Proof.Machine
end

section
/-! `ARK r`: the XOR of a Round Key into the State, and that it undoes itself. -/

namespace Sys2Proof.Machine

/-! ## The function -/

theorem getElem_addRoundKey (S K : Block) (i : Nat) (h : i < 16) : (addRoundKey S K)[i] = S[i] ^^^ K[i] := by
  simp [addRoundKey]

theorem addRoundKey_zero (S : Block) : addRoundKey S (Vector.replicate 16 0#8) = S := by
  ext i hi : 1
  simp [getElem_addRoundKey]

theorem addRoundKey_self (S : Block) : addRoundKey S S = Vector.replicate 16 0#8 := by
  ext i hi : 1
  simp [getElem_addRoundKey]

/-- R152, for blocks. -/
theorem addRoundKey_addRoundKey (S K : Block) : addRoundKey (addRoundKey S K) K = S := by
  ext i hi : 1
  simp [getElem_addRoundKey]

/-! ## The micro-operation -/

/-- R86: `rk` stands in the low four bits, whatever its value. -/
theorem encode_ark : ∀ r : BitVec 4, encode (.ark r) = .u (0x60#8 ||| r.setWidth 8) := by decide

/-- R23: the cells of Round Key `r` by their addresses. -/
theorem holds_roundKeyCells_iff {m : Memory} {r : Nat} {K : Block} : Holds (roundKeyCells m r) K ↔
    ∀ i : Fin 16, m.read (wAddr (4 * r + i.val / 4) (i.val % 4)) = some K[i] := by
  simp [Holds, roundKeyCells]

theorem exec_ark_of_holds {s : State} {r : BitVec 4} {S K : Block} (hr : r.toNat ≤ 10) (hS : Holds s.st S)
    (hK : Holds (roundKeyCells s.w r.toNat) K) :
    exec (.ark r) s = .next ((s.writeSt (addRoundKey S K)).advance) := execArk_of_holds hr hK hS

/-- The converse of `holds_holdBlock`: a register is fixed by the block it holds. -/
theorem eq_holdBlock_of_holds {r : BlockReg} {b : Block} (h : Holds r b) : r = holdBlock b := by
  ext i hi : 1
  rw [getElem_holdBlock]
  exact h ⟨i, hi⟩

/-- Settles O26: the next state writes `addRoundKey S K`, and Round Key 0 is the key (`roundKey_expandKey_zero`). -/
theorem arkXorsTheRoundKey : Obligations.ArkXorsTheRoundKey := by
  refine ⟨encode_ark, fun s r S K hr hS hread => ?_, fun S => ⟨addRoundKey_zero S, addRoundKey_self S⟩,
    fun S K => by rw [roundKey_expandKey_zero], by decide, by decide⟩
  refine ⟨_, exec_ark_of_holds hr hS (holds_roundKeyCells_iff.2 hread), fun i => ?_, rfl,
    onlyStAndUpc_writeSt_advance s _⟩
  simp [getElem_addRoundKey]

/-- Settles O27: the first `ARK r` leaves `W` alone, so the second adds the same Round Key (`addRoundKey_addRoundKey`). -/
theorem arkTwiceRestoresTheState : Obligations.ArkTwiceRestoresTheState := by
  intro s r S K hr hS hK
  refine ⟨_, _, exec_ark_of_holds hr hS hK, exec_ark_of_holds hr (holds_holdBlock (addRoundKey S K)) hK, ?_⟩
  rw [State.advance_st, State.writeSt_st, addRoundKey_addRoundKey, eq_holdBlock_of_holds hS]

end Sys2Proof.Machine
end

section
/-! The cipher orchestrator: where the micro-programs hold which micro-operation, and the effects of `LOAD` and `STORE`. -/

namespace Sys2Proof.Machine

/-! ## The micro-programs -/

/-- R163: the four micro-operations of encryption round `r`. -/
theorem uopAt_encryptRound : ∀ r : Fin 10, 1 ≤ r.val →
    uopAt true (4 * r.val - 1) = some (.ok .sub) ∧ uopAt true (4 * r.val) = some (.ok .shr) ∧
    uopAt true (4 * r.val + 1) = some (.ok .mix) ∧
    uopAt true (4 * r.val + 2) = some (.ok (.ark (BitVec.ofNat 4 r.val))) := by decide

/-- R164: the four micro-operations of decryption round `r`, the rounds descending. -/
theorem uopAt_decryptRound : ∀ r : Fin 10, 1 ≤ r.val →
    uopAt false (3 + 4 * (9 - r.val)) = some (.ok .invshr) ∧
    uopAt false (3 + 4 * (9 - r.val) + 1) = some (.ok .invsub) ∧
    uopAt false (3 + 4 * (9 - r.val) + 2) = some (.ok (.ark (BitVec.ofNat 4 r.val))) ∧
    uopAt false (3 + 4 * (9 - r.val) + 3) = some (.ok .invmix) := by decide

/-- The entries that do not depend on the direction. -/
theorem uopAt_common (d : Bool) : (mprog d).length = 43 ∧ uopAt d 0 = some (.ok .load) ∧
    uopAt d 1 = some (.ok .keyexp) ∧ uopAt d 42 = some (.ok .store) := by
  cases d <;> decide

/-- Settles O4: the bytes are the constants of the model, and the closed form is read off round by round. -/
theorem microProgramsFollowThePipelines : Obligations.MicroProgramsFollowThePipelines :=
  ⟨rfl, rfl, uopAt_common, rfl, uopAt_encryptRound, rfl, rfl, rfl, rfl, uopAt_decryptRound, rfl, rfl, rfl⟩

/-! ## `LOAD` -/

theorem mprogWord_eq_load_iff : ∀ (d : Bool) (n : BitVec 6), mprogWord d n = some 0x20#8 ↔ n = 0#6 := by decide

theorem accepting_iff {s : State} : accepting s = true ↔ s.busy = false ∧ s.ports.cmdValid = true := by
  simp [accepting, cmdReady, and_comm]

theorem exec_load_of_accepting {s : State} (h : accepting s = true) :
    exec .load s = .next (loadFrom s.ports.cmdFwd s) := if_pos h

theorem loadedFrom_loadFrom (d : Bool) (s : State) : LoadedFrom d s (loadFrom d s) := by
  simp [LoadedFrom, HoldsNothing, portByte]

/-- Settles O14: the next state is `loadFrom`, and only an acceptance has one. -/
theorem loadLatchesThePorts : Obligations.LoadLatchesThePorts := by
  refine ⟨rfl, mprogWord_eq_load_iff, fun s hb hv => ?_, fun s t h => accepting_iff.1 (execLoad_next h).1,
    fun s t _ _ hblock h => ?_⟩
  · exact ⟨_, exec_load_of_accepting (accepting_iff.2 ⟨hb, hv⟩), loadedFrom_loadFrom _ s⟩
  · obtain ⟨-, rfl⟩ := execLoad_next h
    simp only [loadFrom_st, getElem_holdBlock, getElem_unpack, hblock]
    decide

/-! ## `STORE` -/

theorem mprogWord_eq_store_iff : ∀ (d : Bool) (n : BitVec 6), mprogWord d n = some 0xe0#8 ↔ n = 42#6 := by decide

/-- The state `STORE` leaves when the State is `S`. -/
def storedFrom (S : Block) (s : State) : State :=
  ((((s.writeOut S).invalidateSt.invalidateKey.invalidateW).flagsCompleted).setUpc 0#6)

theorem exec_store_of_holds {s : State} {S : Block} (h : Holds s.st S) : exec .store s = .next (storedFrom S s) :=
  execStore_of_holds h

theorem holds_storedFrom_out (S : Block) (s : State) : Holds (storedFrom S s).out S := holds_holdBlock S

theorem readOutBlock_storedFrom (S : Block) (s : State) : readOutBlock (storedFrom S s) = .ok (pack S) :=
  readOutBlock_of_holds rfl (holds_storedFrom_out S s)

theorem observe_storedFrom (S : Block) (s : State) :
    observe (storedFrom S s) = { cmdReady := true, busy := false, done := true, outBlock := some (pack S) } := by
  rw [observe, readOutBlock_storedFrom]
  rfl

/-- The sixteen bytes of a port value are adjacent, so they join to the whole of it. -/
theorem pack_unpack (v : Bus) : pack (unpack v) = v := by
  simp only [pack, getElem_unpack, portByte, Nat.reduceMul, Nat.reduceSub,
    BitVec.extractLsb'_append_extractLsb'_eq_extractLsb']
  exact BitVec.extractLsb'_eq_self

/-- Settles O16: the next state is `storedFrom S s`; its result port shows the packed State, byte by byte (`portByte_pack`)
and as a whole (`pack_unpack`). -/
theorem storeDeliversTheState : Obligations.StoreDeliversTheState := by
  refine ⟨rfl, mprogWord_eq_store_iff, fun s S hS => ?_, fun s t hS h => ?_⟩
  · exact ⟨storedFrom S s, pack S, exec_store_of_holds hS, holds_storedFrom_out S s, holdsNothing_noBlock,
      holdsNothing_noBlock, fun _ => rfl, rfl, rfl, rfl, rfl, rfl, rfl, observe_storedFrom S s, portByte_pack S⟩
  · obtain rfl : storedFrom _ s = t := by simpa [exec_store_of_holds hS] using h
    rw [readOutBlock_storedFrom, pack_unpack]

end Sys2Proof.Machine
end

section
/-! The operation in progress: every step of it goes on to the next index, and the step at the last index ends it. -/

namespace Sys2Proof.Machine

/-! ## The micro-operations of an operation -/

/-- The seven round transformations, `ARK r` with a legal `r` only. -/
def transformsState : Instr → Bool
  | .sub | .invsub | .shr | .invshr | .mix | .invmix => true
  | .ark r => decide (r.toNat ≤ 10)
  | _ => false

/-- With a State and a schedule to read, each of the seven writes `ST` and advances `UPC`. -/
theorem exec_of_transformsState {i : Instr} {s : State} {S : Block} {ws : Schedule} (hi : transformsState i = true)
    (hS : Holds s.st S) (hw : ScheduleIn s.w ws) : ∃ T : Block, exec i s = .next (s.writeSt T).advance := by
  cases i with
  | sub | invsub | shr | invshr | mix | invmix => exact ⟨_, roundTransform_of_holds _ hS⟩
  | ark r =>
    have hr : r.toNat ≤ 10 := of_decide_eq_true hi
    exact ⟨_, execArk_of_holds hr (holds_roundKeyCells hw ⟨r.toNat, by omega⟩) hS⟩
  | decrypt | encrypt | load | keyexp | store | invsbox | sbox => exact absurd hi (by decide)

/-- The micro-operation behind index 0: `KEYEXP` at index 1, `STORE` at index 42, a round transformation between them. -/
theorem uop_cases {d : Bool} {n : BitVec 6} {u : Byte} {i : Instr} (hw : mprogWord d n = some u)
    (hd : decodeU u = .ok i) (hn : 1 ≤ n.toNat) :
    (n.toNat = 1 ∧ i = .keyexp) ∨ (n.toNat = 42 ∧ i = .store) ∨
      (2 ≤ n.toNat ∧ n.toNat ≠ 42 ∧ transformsState i = true) := by
  have hplace := mprogWord_places d n
  simp only [hw, hd, Option.all_some, Except.toOption, Bool.and_eq_true, beq_iff_eq, decide_eq_decide] at hplace
  obtain ⟨⟨⟨hlegal, hstore⟩, hload⟩, hkeyexp⟩ := hplace
  by_cases h1 : n.toNat = 1
  · exact .inl ⟨h1, hkeyexp.2 h1⟩
  by_cases h42 : n.toNat = 42
  · exact .inr (.inl ⟨h42, hstore.2 h42⟩)
  refine .inr (.inr ⟨by omega, h42, ?_⟩)
  cases i with
  | sub | invsub | shr | invshr | mix | invmix => rfl
  | ark r => exact hlegal
  | load => exact absurd (hload.1 rfl) (by omega)
  | keyexp => exact absurd (hkeyexp.1 rfl) h1
  | store => exact absurd (hstore.1 rfl) h42
  | decrypt | encrypt | invsbox | sbox => exact absurd hlegal (by decide)

/-! ## The state of an operation -/

theorem loadFrom_inOperation (d : Bool) (s : State) : (loadFrom d s).InOperation := by
  have hkey : KeyAndSchedule (loadFrom d s) false = true :=
    keyAndSchedule_iff.2 ⟨_, holds_holdBlock _, by simp⟩
  exact ⟨rfl, by simp, by simp, rfl, by simp, hkey, fun _ => rfl, holdsNothing_noBlock⟩

theorem State.InOperation.index_range {s : State} (h : s.InOperation) : 1 ≤ s.upc.toNat ∧ s.upc.toNat ≤ 42 := by
  obtain ⟨-, hlow, hhigh, -⟩ := h
  exact ⟨hlow, hhigh⟩

theorem State.InOperation.exists_holds_st {s : State} (h : s.InOperation) : ∃ S : Block, Holds s.st S := by
  obtain ⟨-, -, -, -, hst, -⟩ := h
  obtain ⟨S, hS⟩ := Option.isSome_iff_exists.1 hst
  exact ⟨S, (readCells_eq_some_iff s.st S).1 hS⟩

/-- In an operation `KEY` holds a key, and from index 2 on `W` holds its schedule. -/
theorem State.InOperation.exists_holds_key {s : State} (h : s.InOperation) :
    ∃ K : Block, Holds s.key K ∧ (2 ≤ s.upc.toNat → ScheduleIn s.w (expandKey K)) := by
  obtain ⟨-, -, -, -, -, hkey, -⟩ := h
  obtain ⟨K, hK, hsched⟩ := keyAndSchedule_iff.1 hkey
  exact ⟨K, hK, fun h2 => hsched (decide_eq_true h2)⟩

/-! ## The steps of an operation -/

/-- A busy engine in an operation executes the word at its index. -/
theorem step_inOperation_eq_exec {s : State} (h : s.InOperation) (hb : s.busy = true)
    (hr : s.ports.resetReq = false) : ∃ d u i, mprogWord d s.upc = some u ∧ decodeU u = .ok i ∧ step s = exec i s := by
  obtain ⟨-, hlow, hhigh, hfwd, -⟩ := h
  obtain ⟨d, hd⟩ := Option.isSome_iff_exists.1 hfwd
  obtain ⟨u, i, hw, hi, -⟩ := mprogWord_decodes d s.upc hlow hhigh
  have hfetch : fetch s = .ok u := by simp [fetch, hd, hw]
  exact ⟨d, u, i, hw, hi, by rw [step_busy hr hb, engineStep_of_fetch hfetch hi]⟩

/-- The engine stands at index `n` of an operation; an `n` behind the last index says that the operation has ended. -/
def AtIndex (n : Nat) (s : State) : Prop :=
  if n ≤ 42 then s.busy = true ∧ s.InOperation ∧ s.upc.toNat = n
  else s.busy = false ∧ s.done = true ∧ s.upc = 0#6

theorem atIndex_iff_inOperation {n : Nat} {s : State} (hn : n ≤ 42) :
    AtIndex n s ↔ s.busy = true ∧ s.InOperation ∧ s.upc.toNat = n := by
  rw [AtIndex, if_pos hn]

theorem atIndex_iff_ended {n : Nat} {s : State} (hn : 42 < n) :
    AtIndex n s ↔ s.busy = false ∧ s.done = true ∧ s.upc = 0#6 := by
  rw [AtIndex, if_neg (by omega)]

/-- Advancing `UPC` goes on with the operation, from any state `x` that differs from one in an operation in `ST`, `KEY` and
`W` alone, holds a State and a key, and has the key expanded. -/
theorem atIndex_advance {s x : State} {S K : Block} (h : s.InOperation) (hlt : s.upc.toNat < 42)
    (hframe : x.busy = true ∧ x.done = s.done ∧ x.fwd = s.fwd ∧ x.out = s.out ∧ x.upc = s.upc)
    (hS : Holds x.st S) (hK : Holds x.key K) (hw : ScheduleIn x.w (expandKey K)) :
    AtIndex (s.upc.toNat + 1) x.advance := by
  obtain ⟨hbusy, hdone, hfwd, hout, hupc⟩ := hframe
  obtain ⟨hsdone, hlow, -, hsfwd, -, -, -, hsout⟩ := h
  have hnext : x.advance.upc.toNat = s.upc.toNat + 1 := by
    rw [State.advance_upc, hupc, BitVec.toNat_add]
    exact Nat.mod_eq_of_lt (show s.upc.toNat + 1 < 64 by omega)
  have hst : (readCells x.advance.st).isSome = true := by rw [State.advance_st, readCells_of_holds hS]; rfl
  refine (atIndex_iff_inOperation hlt).2 ⟨hbusy, ⟨hdone.trans hsdone, by omega, by omega, ?_, hst,
    keyAndSchedule_iff.2 ⟨K, hK, fun _ => hw⟩, fun hone => by omega, ?_⟩, hnext⟩
  · rw [State.advance_fwd, hfwd, hsfwd]
  · rw [State.advance_out, hout]
    exact hsout

theorem scheduleIn_writeW_w (s : State) (ws : Schedule) : ScheduleIn (s.writeW ws).w ws := by
  rw [State.writeW_w]
  exact scheduleIn_writeW s.w ws

/-- No step of an operation faults, and each goes on to the next index; behind the last one the operation has ended. -/
theorem step_inOperation {s : State} (h : s.InOperation) (hb : s.busy = true) (hr : s.ports.resetReq = false) :
    ∃ t : State, step s = .next t ∧ AtIndex (s.upc.toNat + 1) t := by
  obtain ⟨d, u, i, hw, hi, hstep⟩ := step_inOperation_eq_exec h hb hr
  obtain ⟨S, hS⟩ := h.exists_holds_st
  obtain ⟨K, hK, hsched⟩ := h.exists_holds_key
  obtain ⟨hlow, hhigh⟩ := h.index_range
  rcases uop_cases hw hi hlow with ⟨h1, rfl⟩ | ⟨h42, rfl⟩ | ⟨h2, hne, htrans⟩
  · exact ⟨_, hstep.trans (exec_keyexp_of_holds hK), atIndex_advance h (by omega) (by simp [hb])
      (by rwa [State.writeW_st]) (by rwa [State.writeW_key]) (scheduleIn_writeW_w s (expandKey K))⟩
  · exact ⟨_, hstep.trans (exec_store_of_holds hS), (atIndex_iff_ended (by omega)).2 ⟨rfl, rfl, rfl⟩⟩
  · obtain ⟨T, hT⟩ := exec_of_transformsState htrans hS (hsched h2)
    exact ⟨_, hstep.trans hT, atIndex_advance h (by omega) (by simp [hb]) (holds_holdBlock T) hK (hsched h2)⟩

/-! ## Runs of an operation -/

theorem runDriven_cons_of_next {s t : State} {p : Ports} (h : step (s.drive p) = .next t) (ps : List Ports) :
    runDriven (p :: ps) s = runDriven ps t := by
  simp [runDriven, h]

/-- R173, from any index of an operation: as many steps as there are indices left never fault, whatever the host drives but a
reset, and each is one index. -/
theorem runDriven_atIndex (ps : List Ports) {n : Nat} {s : State} (h : AtIndex n s) (hlen : n + ps.length ≤ 43)
    (hr : ∀ q ∈ ps, q.resetReq = false) : ∃ t : State, runDriven ps s = .next t ∧ AtIndex (n + ps.length) t := by
  induction ps generalizing n s with
  | nil => exact ⟨s, rfl, h⟩
  | cons p ps ih =>
    obtain ⟨hp, hps⟩ := List.forall_mem_cons.1 hr
    rw [List.length_cons] at hlen
    obtain ⟨hb, hop, rfl⟩ := (atIndex_iff_inOperation (by omega)).1 h
    obtain ⟨t, ht, hat⟩ := step_inOperation (s := s.drive p) hop hb hp
    rw [runDriven_cons_of_next ht, List.length_cons, ← Nat.add_assoc, Nat.add_right_comm]
    exact ih hat (by omega) hps

/-- Acceptance puts the engine at index 1. -/
theorem atIndex_loadFrom (d : Bool) (s : State) : AtIndex 1 (loadFrom d s) :=
  (atIndex_iff_inOperation (by omega)).2 ⟨rfl, loadFrom_inOperation d s, rfl⟩

/-- Settles O46: the acceptance puts the engine at index 1, and `runDriven_atIndex` counts the steps from there. -/
theorem operationTakesFortyTwoSteps : Obligations.OperationTakesFortyTwoSteps := by
  intro s p ps hb hv hp hlen hps
  rw [runDriven_cons_of_next (step_accept (s := s.drive p) hp hb hv)]
  obtain ⟨t, ht, hat⟩ := runDriven_atIndex ps (atIndex_loadFrom p.cmdFwd (s.drive p)) (by omega) hps
  refine ⟨t, ht, ?_⟩
  split
  · obtain ⟨hbusy, ⟨hdone, -⟩, hupc⟩ := (atIndex_iff_inOperation (by omega)).1 hat
    exact ⟨hbusy, hdone, hupc.trans (Nat.add_comm ..)⟩
  · exact (atIndex_iff_ended (by omega)).1 hat

end Sys2Proof.Machine
end

section
/-! The decoder by the fields of a word, that it inverts the encoder, and the words outside the opcode map. -/

namespace Sys2Proof

/-! ## Words and their fields (R83) -/

/-- A word is its three fields side by side. -/
theorem wordU_fields (u : BitVec 8) : wordU (kindField u) (fwdField u) (rkField u) = u := by
  simp only [wordU, kindField, fwdField, rkField]
  rw [BitVec.extractLsb'_append_extractLsb'_eq_extractLsb' (by rfl),
    BitVec.extractLsb'_append_extractLsb'_eq_extractLsb' (by rfl)]
  exact BitVec.extractLsb'_eq_self

theorem eq_wordU {u : BitVec 8} {kind : BitVec 3} {fwd : BitVec 1} {rk : BitVec 4} (hkind : (kindField u).toNat = kind.toNat)
    (hfwd : fwdField u = fwd) (hrk : rkField u = rk) : wordU kind fwd rk = u := by
  rw [← BitVec.eq_of_toNat_eq hkind, ← hfwd, ← hrk, wordU_fields]

theorem eq_zero_of_ne_one : ∀ f : BitVec 1, f ≠ 1#1 → f = 0#1 := by decide

/-! ## When each form of a word decodes -/

theorem plainForm_eq_ok {u : BitVec 8} {i j : Instr} :
    plainForm u i = .ok j ↔ (fwdField u = 0#1 ∧ rkField u = 0#4) ∧ i = j := by
  unfold plainForm
  split <;> simp [*]

theorem directedForm_eq_ok {u : BitVec 8} {fwd inv j : Instr} : directedForm u fwd inv = .ok j ↔
    rkField u = 0#4 ∧ (if fwdField u = 1#1 then fwd else inv) = j := by
  unfold directedForm
  split <;> simp [*]

theorem arkForm_eq_ok {u : BitVec 8} {j : Instr} :
    arkForm u = .ok j ↔ (fwdField u = 0#1 ∧ (rkField u).toNat ≤ 10) ∧ .ark (rkField u) = j := by
  unfold arkForm
  split <;> simp [*]

/-! ## Decoder and encoder are inverse -/

section
variable {u : BitVec 8} {kind : BitVec 3} (hkind : (kindField u).toNat = kind.toNat)
include hkind

theorem encode_of_plainForm {i j : Instr} (hi : i.wellFormed = true ∧ encode i = .u (wordU kind 0#1 0#4))
    (h : plainForm u i = .ok j) : j.wellFormed = true ∧ encode j = .u u := by
  obtain ⟨⟨hfwd, hrk⟩, rfl⟩ := plainForm_eq_ok.1 h
  rwa [eq_wordU hkind hfwd hrk] at hi

theorem encode_of_directedForm {fwd inv j : Instr} (hfwd : fwd.wellFormed = true ∧ encode fwd = .u (wordU kind 1#1 0#4))
    (hinv : inv.wellFormed = true ∧ encode inv = .u (wordU kind 0#1 0#4)) (h : directedForm u fwd inv = .ok j) :
    j.wellFormed = true ∧ encode j = .u u := by
  obtain ⟨hrk, rfl⟩ := directedForm_eq_ok.1 h
  split
  · next h1 => rwa [eq_wordU hkind h1 hrk] at hfwd
  · next h1 => rwa [eq_wordU hkind (eq_zero_of_ne_one _ h1) hrk] at hinv

end

theorem encode_of_arkForm {u : BitVec 8} (hkind : (kindField u).toNat = 3) {j : Instr} (h : arkForm u = .ok j) :
    j.wellFormed = true ∧ encode j = .u u := by
  obtain ⟨⟨hfwd, hrk⟩, rfl⟩ := arkForm_eq_ok.1 h
  exact ⟨decide_eq_true hrk, congrArg Encoded.u (eq_wordU hkind hfwd rfl)⟩

/-- R88: a legal format `U` word is the encoding of the legal instruction it decodes to, family by family of its `kind`. -/
theorem encode_of_decodeU {u : BitVec 8} {i : Instr} (h : decodeU u = .ok i) : i.wellFormed = true ∧ encode i = .u u := by
  unfold decodeU at h
  split at h
  · next hk => exact encode_of_plainForm (kind := 1#3) hk ⟨rfl, rfl⟩ h
  · next hk => exact encode_of_plainForm (kind := 2#3) hk ⟨rfl, rfl⟩ h
  · next hk => exact encode_of_arkForm hk h
  · next hk => exact encode_of_directedForm (kind := 4#3) hk ⟨rfl, rfl⟩ ⟨rfl, rfl⟩ h
  · next hk => exact encode_of_directedForm (kind := 5#3) hk ⟨rfl, rfl⟩ ⟨rfl, rfl⟩ h
  · next hk => exact encode_of_directedForm (kind := 6#3) hk ⟨rfl, rfl⟩ ⟨rfl, rfl⟩ h
  · next hk => exact encode_of_plainForm (kind := 7#3) hk ⟨rfl, rfl⟩ h
  · exact absurd h (by simp)

theorem decodeU_encode_ark : ∀ r : BitVec 4, r.toNat ≤ 10 → decodeU (wordU 0b011#3 0#1 r) = .ok (.ark r) := by decide

theorem decode_encode {i : Instr} (h : i.wellFormed = true) : decode (encode i) = .ok i := by
  cases i with
  | ark r => exact decodeU_encode_ark r (of_decide_eq_true h)
  | decrypt | encrypt | load | keyexp | invsub | sub | invshr | shr | invmix | mix | store | invsbox | sbox => decide

/-- The two one-bit formats have no illegal value. -/
theorem encode_decodeC : ∀ f : BitVec 1, (decodeC f).wellFormed = true ∧ encode (decodeC f) = .c f := by decide

theorem encode_decodeS : ∀ f : BitVec 1, (decodeS f).wellFormed = true ∧ encode (decodeS f) = .s f := by decide

theorem encode_of_decode {e : Encoded} {i : Instr} (h : decode e = .ok i) : i.wellFormed = true ∧ encode i = e := by
  cases e with
  | c f => obtain rfl : decodeC f = i := by simpa [decode] using h
           exact encode_decodeC f
  | u w => exact encode_of_decodeU h
  | s f => obtain rfl : decodeS f = i := by simpa [decode] using h
           exact encode_decodeS f

/-- Settles O1: `decode_encode` instruction by instruction, `encode_of_decode` format by format. -/
theorem decodeInvertsEncode : Obligations.DecodeInvertsEncode :=
  ⟨fun _ => decode_encode, fun _ _ => encode_of_decode⟩

/-- Settles O2: each word is evaluated. -/
theorem opcodeMapWordsDecode : Obligations.OpcodeMapWordsDecode := by
  unfold Obligations.OpcodeMapWordsDecode
  decide

/-! ## The pseudo-instructions (R94) -/

/-- Settles O5: the expansions are evaluated for each `r`, and the words of the programs decode to them one by one. -/
theorem pseudoInstructionsSpellThePrograms : Obligations.PseudoInstructionsSpellThePrograms :=
  ⟨by decide, by decide, rfl, rfl, ⟨_, rfl, by decide⟩, ⟨_, rfl, by decide⟩⟩

end Sys2Proof
end

section
/-! What executing an instruction can do, said once (`ExecEffect`), and what follows of it for all instructions: which
registers each leaves alone, that none is a no-operation, and when a read of `NOVALUE` stops it. -/

namespace Sys2Proof.Machine

/-! ## The effects -/

/-- All that executing an instruction in state `s` can do (`exec_effect`). -/
inductive ExecEffect (s : State) : Instr → State → Prop
  /-- `LOAD` or a command takes effect in an acceptance only. -/
  | accepted {i : Instr} (d : Bool) (hi : i ∈ [Instr.encrypt, .decrypt, .load]) (ha : accepting s = true) :
      ExecEffect s i (loadFrom d s)
  /-- A command that is not accepted waits. -/
  | waited {i : Instr} (hi : i ∈ [Instr.encrypt, .decrypt]) : ExecEffect s i s
  /-- `KEYEXP` needs a key and writes its schedule, which has a name of its own here so that nothing evaluates it. -/
  | expanded {K : Block} {ws : Schedule} (hK : Holds s.key K) (hws : expandKey K = ws) :
      ExecEffect s .keyexp (s.writeW ws).advance
  /-- A round transformation needs a State and writes another. -/
  | transformed {i : Instr} {S : Block} (T : Block) (hi : transformsState i = true) (hS : Holds s.st S) :
      ExecEffect s i (s.writeSt T).advance
  /-- `STORE` needs a State and delivers it. -/
  | stored {S : Block} (hS : Holds s.st S) : ExecEffect s .store (storedFrom S s)
  /-- The substitution unit answers. -/
  | answered {i : Instr} (y : Byte) (hi : i ∈ [Instr.sbox, .invsbox]) : ExecEffect s i (s.unitAnswers y)

theorem execEffect_of_offerCommand {i : Instr} {d : Bool} {s t : State} (hi : i ∈ [Instr.encrypt, .decrypt])
    (h : offerCommand d s = .next t) : ExecEffect s i t := by
  rcases offerCommand_next h with ⟨ha, rfl⟩ | ⟨-, rfl⟩
  · exact .accepted d (List.mem_append_left [Instr.load] hi) ha
  · exact .waited hi

theorem execEffect_of_roundTransform {i : Instr} {f : Block → Block} {s t : State} (hi : transformsState i = true)
    (h : roundTransform f s = .next t) : ExecEffect s i t := by
  obtain ⟨S, hS, rfl⟩ := roundTransform_next h
  exact .transformed (f S) hi hS

theorem exec_effect {i : Instr} {s t : State} (h : exec i s = .next t) : ExecEffect s i t := by
  cases i with
  | encrypt | decrypt => exact execEffect_of_offerCommand (by decide) h
  | load =>
    obtain ⟨ha, rfl⟩ := execLoad_next h
    exact .accepted _ (by decide) ha
  | keyexp =>
    obtain ⟨K, hK, rfl⟩ := execKeyexp_next h
    exact .expanded hK rfl
  | ark r =>
    obtain ⟨hr, K, S, -, hS, rfl⟩ := execArk_next h
    exact .transformed _ (decide_eq_true hr) hS
  | sub | invsub | shr | invshr | mix | invmix => exact execEffect_of_roundTransform rfl h
  | store =>
    obtain ⟨S, hS, rfl⟩ := execStore_next h
    exact .stored hS
  | sbox | invsbox =>
    obtain rfl := Host.Outcome.next.inj h
    exact .answered _ (by decide)

/-! ## What each instruction leaves alone -/

theorem transformsState_notMem {i : Instr} (h : transformsState i = true) :
    i ∉ [Instr.encrypt, .decrypt, .load, .keyexp, .store, .sbox, .invsbox] := by
  intro hmem
  simp only [List.mem_cons, List.not_mem_nil, or_false] at hmem
  rcases hmem with rfl | rfl | rfl | rfl | rfl | rfl | rfl <;> cases h

/-- Settles O53, effect by effect. -/
theorem instructionsWriteOnlyTheirRegisters : Obligations.InstructionsWriteOnlyTheirRegisters := by
  intro i s t h
  cases exec_effect h with
  | accepted d hi ha =>
    simp only [List.mem_cons, List.not_mem_nil, or_false] at hi
    rcases hi with rfl | rfl | rfl <;> simp
  | waited hi => simp [SameRegisters]
  | expanded => simp
  | transformed T hi hS =>
    have := transformsState_notMem hi
    simp only [List.mem_cons, List.not_mem_nil, or_false, not_or] at this
    simp [this]
  | stored hS => simp [storedFrom]
  | answered y hi =>
    simp only [List.mem_cons, List.not_mem_nil, or_false] at hi
    rcases hi with rfl | rfl <;> simp [SameRegisters]

/-! ## No word is a no-operation -/

/-- A format `U` word is no command and no selection of the substitution unit: those are encoded in the other formats. -/
theorem decodeU_notMem {u : Byte} {i : Instr} (h : decodeU u = .ok i) :
    i ∉ [Instr.encrypt, .decrypt, .sbox, .invsbox] := by
  intro hmem
  obtain ⟨-, henc⟩ := encode_of_decodeU h
  simp only [List.mem_cons, List.not_mem_nil, or_false] at hmem
  rcases hmem with rfl | rfl | rfl | rfl <;> exact absurd henc (by simp [encode])

theorem advance_ne {s x : State} (h : x.upc = s.upc) : x.advance ≠ s := by
  intro heq
  have hupc : x.upc + 1#6 = s.upc := congrArg State.upc heq
  rw [h] at hupc
  bv_omega

theorem runWord_next {u : Byte} {s t : State} (h : runWord u s = .next t) : ∃ i, decodeU u = .ok i ∧ exec i s = .next t := by
  unfold runWord at h
  split at h
  · next i hi => exact ⟨i, hi, h⟩
  · exact absurd h (by simp)

theorem runWord_of_error {u : Byte} {e : DecodeError} (h : decodeU u = .error e) (s : State) :
    runWord u s = .fault .illegalMicroOp := by
  simp [runWord, h]

/-- `LOAD` sets `BUSY`, `STORE` clears the cells of `ST` it has read, and every other micro-operation moves `UPC`. -/
theorem runWord_ne {u : Byte} {s t : State} (h : runWord u s = .next t) : t ≠ s := by
  obtain ⟨i, hi, hexec⟩ := runWord_next h
  have hmem := decodeU_notMem hi
  cases exec_effect hexec with
  | accepted d _ ha =>
    obtain ⟨hb, -⟩ := accepting_iff.1 ha
    intro heq
    have : true = s.busy := congrArg State.busy heq
    simp [hb] at this
  | waited hc => exact absurd (List.mem_append_left [Instr.sbox, .invsbox] hc) hmem
  | @expanded _ ws => exact advance_ne (State.writeW_upc s ws)
  | transformed T => exact advance_ne (State.writeSt_upc s T)
  | @stored S hS =>
    intro heq
    have hnone : none = s.st[0] := congrArg (·.st[0]) heq
    have : s.st[0] = some S[0] := hS 0
    simp [this] at hnone
  | answered y hc => exact absurd (List.mem_append_right [Instr.encrypt, .decrypt] hc) hmem

theorem mprogWord_legal {d : Bool} {n : BitVec 6} {u : Byte} (h : mprogWord d n = some u) : ∃ i, decodeU u = .ok i := by
  have hall : ∀ (d : Bool) (n : BitVec 6), (mprogWord d n).all (fun u => (decodeU u).toBool) = true := by decide
  have hu : (decodeU u).toBool = true := by simpa [h] using hall d n
  cases hd : decodeU u with
  | ok i => exact ⟨i, rfl⟩
  | error e => simp [hd, Except.toBool] at hu

/-- Settles O3: the illegal words are read off the map word by word, and a word that goes on has one of the effects. -/
theorem illegalWordsFault : Obligations.IllegalWordsFault :=
  ⟨by decide, by decide +kernel, fun _ s h => runWord_of_error h s, fun _ _ _ => mprogWord_legal,
    fun _ _ _ => runWord_ne, fun _ _ => decodeU_notMem⟩

end Sys2Proof.Machine
end

section
/-! What the instructions read: a round transformation the State alone, `ARK r` its Round Key too; a read of `NOVALUE` stops
them; substitution and row rotation commute. -/

namespace Sys2Proof.Machine

/-! ## What the round transformations read -/

/-- R156: each of the six without an operand is one function on the State. -/
theorem exists_exec_eq_roundTransform {i : Instr} (h : i ∈ [Instr.sub, .invsub, .shr, .invshr, .mix, .invmix]) :
    ∃ f : Block → Block, ∀ s : State, exec i s = roundTransform f s := by
  simp only [List.mem_cons, List.not_mem_nil, or_false] at h
  rcases h with rfl | rfl | rfl | rfl | rfl | rfl <;> exact ⟨_, fun _ => rfl⟩

/-- Settles O28: a step that goes on has read a block, and the same block gives the same State again. -/
theorem roundTransformationsReadAndWriteOnlyTheState : Obligations.RoundTransformationsReadAndWriteOnlyTheState := by
  refine ⟨fun i s t hi h => ?_, fun r s t h => ?_⟩
  · obtain ⟨f, hf⟩ := exists_exec_eq_roundTransform hi
    obtain ⟨S, hS, rfl⟩ := roundTransform_next ((hf s).symm.trans h)
    exact ⟨State.advance_upc _, onlyStAndUpc_writeSt_advance s _,
      fun s' hst => ⟨_, (hf s').trans (roundTransform_of_holds f (hst.symm ▸ hS)), rfl⟩⟩
  · obtain ⟨hr, K, S, hK, hS, rfl⟩ := execArk_next h
    exact ⟨State.advance_upc _, onlyStAndUpc_writeSt_advance s _,
      fun s' hst hkey => ⟨_, exec_ark_of_holds hr (hst.symm ▸ hS) (hkey.symm ▸ hK), rfl⟩⟩

/-! ## Reads of `NOVALUE` -/

theorem exec_of_st_noValue {s : State} {k : Fin 16} (h : s.st[k] = none) {i : Instr}
    (hi : i ∈ [Instr.sub, .invsub, .shr, .invshr, .mix, .invmix, .store]) : exec i s = .fault .readNoValue := by
  rcases List.mem_append.1 (show i ∈ [Instr.sub, .invsub, .shr, .invshr, .mix, .invmix] ++ [.store] from hi) with hi | hi
  · obtain ⟨f, hf⟩ := exists_exec_eq_roundTransform hi
    rw [hf, roundTransform, withBlock_of_noValue k h]
  · obtain rfl := List.mem_singleton.1 hi
    exact withBlock_of_noValue k h _

theorem exec_keyexp_of_noValue {s : State} {k : Fin 16} (h : s.key[k] = none) :
    exec .keyexp s = .fault .readNoValue := withBlock_of_noValue k h _

/-- The Round Key is read before the State; the same fault comes of either. -/
theorem exec_ark_of_noValue {s : State} {r : BitVec 4} (hr : r.toNat ≤ 10) {k : Fin 16}
    (h : s.st[k] = none ∨ s.w.read (wAddr (4 * r.toNat + k.val / 4) (k.val % 4)) = none) :
    exec (.ark r) s = .fault .readNoValue := by
  change execArk r s = _
  rw [execArk, if_pos hr]
  rcases h with hst | hkey
  · have hcont (K : Block) : roundTransform (addRoundKey · K) s = .fault .readNoValue := withBlock_of_noValue k hst _
    unfold withBlock
    split
    · exact hcont _
    · rfl
  · exact withBlock_of_noValue k (by simpa [roundKeyCells] using hkey) _

theorem exec_ark_of_illegal {s : State} {r : BitVec 4} (hr : 10 < r.toNat) : exec (.ark r) s = .fault .illegalMicroOp :=
  if_neg (by omega)

/-- Settles O29, read by read. -/
theorem readOfNoValueFaults : Obligations.ReadOfNoValueFaults := fun _ _ =>
  ⟨fun hst _ => exec_of_st_noValue hst, exec_keyexp_of_noValue, fun _ hr => exec_ark_of_noValue hr,
    fun _ => exec_ark_of_illegal⟩

/-! ## Two round transformations in a row -/

/-- R154: a byte is replaced by its value, wherever it stands. -/
theorem subBytes_shiftRows (S : Block) (d e : Bool) : subBytes (shiftRows S d) e = shiftRows (subBytes S e) d := by
  ext i hi : 1
  simp [subBytes, shiftRows]

/-- Transformations that commute on blocks commute as micro-operations. -/
theorem roundTransform_comm {f g : Block → Block} (hfg : ∀ S, g (f S) = f (g S)) {s t u : State}
    (hf : roundTransform f s = .next t) (hg : roundTransform g t = .next u) :
    ∃ t' : State, roundTransform g s = .next t' ∧ roundTransform f t' = .next u := by
  obtain ⟨S, hS, rfl⟩ := roundTransform_next hf
  have hfirst : Holds (s.writeSt (f S)).advance.st (f S) := holds_holdBlock (f S)
  obtain rfl := Host.Outcome.next.inj ((roundTransform_of_holds g hfirst).symm.trans hg)
  refine ⟨_, roundTransform_of_holds g hS, ?_⟩
  rw [roundTransform_of_holds f (holds_holdBlock (g S)), hfg]
  rfl

/-- Settles O41: as functions by `subBytes_shiftRows`, as micro-operations by `roundTransform_comm`. -/
theorem substitutionCommutesWithRotation : Obligations.SubstitutionCommutesWithRotation :=
  ⟨subBytes_shiftRows, fun _ _ _ => roundTransform_comm fun S => (subBytes_shiftRows S true true).symm,
    fun _ _ _ => roundTransform_comm fun S => subBytes_shiftRows S false false⟩

/-! ## The substitution unit -/

/-- Neither box has a fixed point. -/
theorem substitute_inverse_ne : ∀ x : Byte, substitute x false ≠ x := by decide

/-- Settles O30: the answer is the entry by definition, and the boxes are evaluated at the examples. -/
theorem substitutionUnitAnswersTheTable : Obligations.SubstitutionUnitAnswersTheTable :=
  ⟨fun _ => ⟨_, rfl, rfl, ⟨rfl, rfl, rfl, rfl, rfl, rfl, rfl, rfl⟩, rfl⟩,
    fun _ => ⟨_, rfl, rfl, ⟨rfl, rfl, rfl, rfl, rfl, rfl, rfl, rfl⟩, rfl⟩, rfl, rfl, fun _ => ⟨rfl, rfl⟩, by decide,
    by decide, by decide, by decide, by decide, by decide, fun x => ⟨substitute_forward_ne x, substitute_inverse_ne x⟩⟩

/-- R114. -/
theorem substitute_substitute : ∀ (d : Bool) (x : Byte), substitute (substitute x d) (!d) = x := by decide

/-- Settles O31 by `substitute_substitute` in both directions. -/
theorem substitutionBoxesAreInverse : Obligations.SubstitutionBoxesAreInverse := fun x =>
  ⟨substitute_substitute true x, substitute_substitute false x⟩

/-- Settles O19: the helpers by their bytes, the examples by evaluation. -/
theorem wordHelpersByIndex : Obligations.WordHelpersByIndex :=
  ⟨fun t j => getElem_rotWord t j j.isLt, fun t j => getElem_subWord t j j.isLt, by decide, by decide, by decide, by decide,
    by decide +kernel⟩

end Sys2Proof.Machine
end

section
/-! What a step can do, said once (`StepEffect`), and what follows of it: how the control registers move, what an ended
operation leaves, and that a busy engine does not look at the command ports. -/

namespace Sys2Proof.Machine

/-! ## The effects of a step -/

/-- All that a step from `s` can do (`step_effect`); `0xe0` is the word of `STORE`, `0x20` that of `LOAD`. -/
inductive StepEffect (s : State) : State → Prop
  /-- A requested reset happens. -/
  | reset (hr : s.ports.resetReq = true) : StepEffect s (resetEvent s)
  /-- An idle engine without a command waits. -/
  | idle (hr : s.ports.resetReq = false) (hb : s.busy = false) (hv : s.ports.cmdValid = false) : StepEffect s s
  /-- A ready engine accepts the offered command. -/
  | accepted (hr : s.ports.resetReq = false) (hb : s.busy = false) (hv : s.ports.cmdValid = true) :
      StepEffect s (loadFrom s.ports.cmdFwd s)
  /-- A busy engine runs `KEYEXP`. -/
  | expanded {K : Block} {ws : Schedule} (hr : s.ports.resetReq = false) (hb : s.busy = true)
      (hf : fetch s = .ok 0x40#8) (hK : Holds s.key K) (hws : expandKey K = ws) : StepEffect s (s.writeW ws).advance
  /-- A busy engine runs a round transformation. -/
  | transformed {u : Byte} (T : Block) (hr : s.ports.resetReq = false) (hb : s.busy = true) (hf : fetch s = .ok u)
      (hu : u ≠ 0xe0#8 ∧ u ≠ 0x20#8) : StepEffect s (s.writeSt T).advance
  /-- A busy engine runs `STORE`. -/
  | stored {S : Block} (hr : s.ports.resetReq = false) (hb : s.busy = true) (hf : fetch s = .ok 0xe0#8)
      (hS : Holds s.st S) : StepEffect s (storedFrom S s)

theorem fetch_of_word {s : State} {d : Bool} {u : Byte} (hd : s.fwd = some d) (hw : mprogWord d s.upc = some u) :
    fetch s = .ok u := by
  simp [fetch, hd, hw]

/-- The word of an instruction is fixed by the instruction. -/
theorem fetch_of_decodeU {s : State} {u v : Byte} {i : Instr} (hf : fetch s = .ok u) (hu : decodeU u = .ok i)
    (hv : encode i = .u v) : fetch s = .ok v := by
  obtain ⟨-, henc⟩ := encode_of_decodeU hu
  rw [hf, Encoded.u.inj (henc.symm.trans hv)]

/-- The word of a round transformation is neither that of `STORE` nor that of `LOAD`. -/
theorem word_of_transformsState {u : Byte} {i : Instr} (hu : decodeU u = .ok i) (hi : transformsState i = true) :
    u ≠ 0xe0#8 ∧ u ≠ 0x20#8 := by
  refine ⟨?_, ?_⟩ <;>
  · rintro rfl
    obtain rfl := Except.ok.inj hu
    exact absurd hi (by decide)

/-- A busy engine runs one of the three micro-operations that neither accept nor belong to another format. -/
theorem stepEffect_of_exec {s t : State} {u : Byte} {i : Instr} (hr : s.ports.resetReq = false) (hb : s.busy = true)
    (hf : fetch s = .ok u) (hu : decodeU u = .ok i) (h : exec i s = .next t) : StepEffect s t := by
  have hmem := decodeU_notMem hu
  cases exec_effect h with
  | accepted d _ ha =>
    obtain ⟨hidle, -⟩ := accepting_iff.1 ha
    exact absurd (hb.symm.trans hidle) (by simp)
  | waited hi => exact absurd (List.mem_append_left [Instr.sbox, .invsbox] hi) hmem
  | expanded hK hws => exact .expanded hr hb (fetch_of_decodeU hf hu rfl) hK hws
  | transformed T hi _ => exact .transformed T hr hb hf (word_of_transformsState hu hi)
  | stored hS => exact .stored hr hb (fetch_of_decodeU hf hu rfl) hS
  | answered y hi => exact absurd (List.mem_append_right [Instr.encrypt, .decrypt] hi) hmem

theorem step_effect {s t : State} (h : step s = .next t) : StepEffect s t := by
  rcases step_cases h with ⟨hr, rfl⟩ | ⟨hr, hb, hv, rfl⟩ | ⟨hr, hb, hv, rfl⟩ | ⟨hr, hb, d, u, i, hd, hw, hu, hexec⟩
  · exact .reset hr
  · exact .idle hr hb hv
  · exact .accepted hr hb hv
  · exact stepEffect_of_exec hr hb (fetch_of_word hd hw) hu hexec

/-! ## How the control registers move -/

/-- What the host and the sequencer need to follow an operation: `FWD`, `UPC`, `BUSY`, `DONE` (R172). -/
def State.control (s : State) : Option Bool × BitVec 6 × Bool × Bool := (s.fwd, s.upc, s.busy, s.done)

/-- The control registers after a step, read off the ports, the fetch and the control registers. -/
def controlAfter (p : Ports) (word : Except Fault Byte) (c : Option Bool × BitVec 6 × Bool × Bool) :
    Option Bool × BitVec 6 × Bool × Bool :=
  let (fwd, upc, busy, done) := c
  if p.resetReq then (none, 0#6, false, false)
  else if busy then if word = .ok 0xe0#8 then (fwd, 0#6, false, true) else (fwd, upc + 1#6, true, done)
  else if p.cmdValid then (some p.cmdFwd, 1#6, true, false) else c

theorem step_control {s t : State} (h : step s = .next t) : t.control = controlAfter s.ports (fetch s) s.control := by
  cases step_effect h with
  | reset hr => simp [State.control, controlAfter, hr]
  | idle hr hb hv => simp [State.control, controlAfter, hr, hb, hv]
  | accepted hr hb hv => simp [State.control, controlAfter, hr, hb, hv]
  | expanded hr hb hf => simp [State.control, controlAfter, hr, hb, hf]
  | transformed T hr hb hf hu => simp [State.control, controlAfter, hr, hb, hf, hu]
  | stored hr hb hf => simp [State.control, controlAfter, hr, hb, hf, storedFrom]

section
variable {s t : State} (h : step s = .next t)
include h

theorem step_upc : t.upc = (controlAfter s.ports (fetch s) s.control).2.1 := congrArg (·.2.1) (step_control h)

theorem step_flags : t.busy = (controlAfter s.ports (fetch s) s.control).2.2.1 ∧
    t.done = (controlAfter s.ports (fetch s) s.control).2.2.2 :=
  ⟨congrArg (·.2.2.1) (step_control h), congrArg (·.2.2.2) (step_control h)⟩

end

/-- The places of `STORE`, of `LOAD` and of no entry at all. -/
theorem mprogWord_upc : ∀ (d : Bool) (n : BitVec 6), (mprogWord d n = some 0xe0#8 ↔ n.toNat = 42) ∧
    (mprogWord d n = none ↔ 42 < n.toNat) ∧ (mprogWord d n = some 0x20#8 ↔ n.toNat = 0) := by decide

/-- Settles O51: `UPC` after a step is that of `controlAfter`. -/
theorem upcMovesOnlyAsStated : Obligations.UpcMovesOnlyAsStated := by
  refine ⟨fun s t h => ?_, mprogWord_upc⟩
  rw [step_upc h]
  refine ⟨fun hr => ?_, fun hr ha => ?_, fun hr hb hv => ?_, fun hr hb hf => ?_, fun hr hb hf => ?_⟩
  · simp [controlAfter, hr]
  · obtain ⟨hb, hv⟩ := accepting_iff.1 ha
    simp [controlAfter, State.control, hr, hb, hv]
  · simp [controlAfter, State.control, hr, hb, hv]
  · simp [controlAfter, State.control, hr, hb, hf]
  · simp [controlAfter, State.control, hr, hb, hf]

/-- A result stays or is a new one, as long as `DONE` is 1 behind the step. -/
theorem step_keeps_result {s t : State} (h : step s = .next t) (hs : s.done = true → ∃ B : Block, Holds s.out B)
    (ht : t.done = true) : ∃ B : Block, Holds t.out B := by
  cases step_effect h with
  | reset | accepted => exact absurd ht (by simp)
  | idle => exact hs ht
  | @stored S => exact ⟨S, holds_storedFrom_out S s⟩
  | expanded | transformed => exact hs ht

/-- The flags are never (1,1): a step that sets one of them clears the other. -/
theorem step_not_busy_and_done {s t : State} (h : step s = .next t) (hs : ¬(s.busy = true ∧ s.done = true)) :
    ¬(t.busy = true ∧ t.done = true) := by
  cases step_effect h with
  | reset | accepted | stored => simp [storedFrom]
  | idle | expanded | transformed => exact hs

/-- Settles O52: the flags after a step are those of `controlAfter`. -/
theorem flagsMoveOnlyAsStated : Obligations.FlagsMoveOnlyAsStated := by
  intro s t h
  obtain ⟨hbusy, hdone⟩ := step_flags h
  refine ⟨fun hr => ?_, fun hr ha => ?_, fun hr hb hf => ?_, fun hr ha hns => ?_, step_not_busy_and_done h,
    step_keeps_result h, rfl⟩
  · simp [hbusy, hdone, controlAfter, hr]
  · obtain ⟨hb, hv⟩ := accepting_iff.1 ha
    simp [hbusy, hdone, controlAfter, State.control, hr, hb, hv]
  · simp [hbusy, hdone, controlAfter, State.control, hr, hb, hf]
  · rw [hbusy, hdone]
    cases hb : s.busy with
    | true => simp [controlAfter, State.control, hr, hb, show fetch s ≠ .ok 0xe0#8 from fun hf => hns ⟨hb, hf⟩]
    | false =>
      have hv : s.ports.cmdValid = false := by simpa [accepting, cmdReady, hb] using ha
      simp [controlAfter, State.control, hr, hb, hv]

/-- Settles O56: only a reset and `STORE` lead from `BUSY = 1` to `BUSY = 0`. -/
theorem endedOperationLeavesNoSecret : Obligations.EndedOperationLeavesNoSecret := by
  intro s t h hs ht
  cases step_effect h with
  | reset => exact ⟨holdsNothing_noBlock, holdsNothing_noBlock, fun _ => rfl⟩
  | idle _ hb => exact absurd (hs.symm.trans hb) (by simp)
  | accepted _ hb => exact absurd (hs.symm.trans hb) (by simp)
  | expanded => exact absurd (hs.symm.trans ht) (by simp)
  | transformed => exact absurd (hs.symm.trans ht) (by simp)
  | stored => exact ⟨holdsNothing_noBlock, holdsNothing_noBlock, fun _ => rfl⟩

/-! ## The step by its cases -/

/-- Settles O6. -/
theorem busyStepRunsTheFetchedInstruction : Obligations.BusyStepRunsTheFetchedInstruction :=
  fun _ _ _ _ hr hb hd hw hu => (step_busy hr hb).trans (engineStep_of_fetch (fetch_of_word hd hw) hu)

theorem exec_load_of_ready {s : State} (hb : s.busy = false) (hv : s.ports.cmdValid = true) :
    exec .load s = .next (loadFrom s.ports.cmdFwd s) := exec_load_of_accepting (accepting_iff.2 ⟨hb, hv⟩)

theorem exec_portCommand_of_ready {s : State} (hb : s.busy = false) (hv : s.ports.cmdValid = true) :
    exec (portCommand s) s = .next (loadFrom s.ports.cmdFwd s) := by
  rw [portCommand_exec, offerCommand, if_pos (accepting_iff.2 ⟨hb, hv⟩)]

/-- Settles O7: acceptance, command and `LOAD` all lead to `loadFrom`. -/
theorem readyStepRunsTheOfferedCommand : Obligations.ReadyStepRunsTheOfferedCommand := fun _ hr hb =>
  ⟨fun hv => ⟨(step_accept hr hb hv).trans (exec_portCommand_of_ready hb hv).symm,
    (step_accept hr hb hv).trans (exec_load_of_ready hb hv).symm⟩, step_idle hr hb⟩

theorem observe_resetEvent (s : State) :
    observe (resetEvent s) = { cmdReady := true, busy := false, done := false, outBlock := none } := by
  rw [observe, readOutBlock_of_not_done (resetEvent_done s)]
  rfl

/-- Settles O8: the step is `resetEvent`. -/
theorem resetEventClearsTheEngine : Obligations.ResetEventClearsTheEngine := fun s hr =>
  ⟨_, step_reset hr, holdsNothing_noBlock, holdsNothing_noBlock, fun _ => rfl, holdsNothing_noBlock, rfl, rfl, rfl, rfl,
    observe_resetEvent s, rfl, rfl⟩

/-- Settles O10, register by register. -/
theorem resetStateIsAsStated : Obligations.ResetStateIsAsStated :=
  ⟨holdsNothing_noBlock, holdsNothing_noBlock, fun _ => rfl, holdsNothing_noBlock, rfl, rfl, rfl, rfl, rfl, rfl, rfl,
    readOutBlock_of_not_done rfl⟩

theorem offerCommand_of_ready {s : State} (d : Bool) (hv : s.ports.cmdValid = true) (hb : s.busy = false) :
    ∃ t : State, offerCommand d s = .next t ∧ LoadedFrom d s t :=
  ⟨loadFrom d s, by rw [offerCommand, if_pos (accepting_iff.2 ⟨hb, hv⟩)], loadedFrom_loadFrom d s⟩

/-- Settles O11. -/
theorem encryptIsAcceptedWhenReady : Obligations.EncryptIsAcceptedWhenReady := fun _ => offerCommand_of_ready true

/-- Settles O12. -/
theorem decryptIsAcceptedWhenReady : Obligations.DecryptIsAcceptedWhenReady := fun _ => offerCommand_of_ready false

theorem accepting_eq_false_iff {s : State} : accepting s = false ↔ s.busy = true ∨ s.ports.cmdValid = false := by
  simp [accepting, cmdReady, imp_iff_not_or, or_comm]

/-- Settles O15: the precondition of `LOAD` is an acceptance. -/
theorem loadOutsideAcceptanceFaults : Obligations.LoadOutsideAcceptanceFaults := fun _ h =>
  if_neg (by rw [accepting_eq_false_iff.2 h]; simp)

/-! ## What a step does not read -/

/-- The same registers, with other ports and another operand and answer of the substitution unit. -/
def State.withOutside (s : State) (p : Ports) (v : SubUnit) : State := { s with ports := p, subUnit := v }

theorem eq_withOutside_of_sameRegisters {s t : State} (h : SameRegisters s t) : t = s.withOutside t.ports t.subUnit := by
  obtain ⟨hst, hkey, hw, hout, hfwd, hupc, hbusy, hdone⟩ := h
  simp [State.withOutside, hst, hkey, hw, hout, hfwd, hupc, hbusy, hdone]

theorem sameRegisters_withOutside (s : State) (p : Ports) (v : SubUnit) : SameRegisters s (s.withOutside p v) :=
  ⟨rfl, rfl, rfl, rfl, rfl, rfl, rfl, rfl⟩

/-- The micro-operations of a busy engine read registers only. -/
theorem exec_withOutside {s t : State} {u : Byte} {i : Instr} (hb : s.busy = true) (hu : decodeU u = .ok i)
    (h : exec i s = .next t) (p : Ports) (v : SubUnit) : exec i (s.withOutside p v) = .next (t.withOutside p v) := by
  have hmem := decodeU_notMem hu
  cases i with
  | encrypt | decrypt | sbox | invsbox => simp at hmem
  | load =>
    obtain ⟨ha, -⟩ := execLoad_next h
    obtain ⟨hidle, -⟩ := accepting_iff.1 ha
    exact absurd (hb.symm.trans hidle) (by simp)
  | keyexp =>
    obtain ⟨K, hK, rfl⟩ := execKeyexp_next h
    have hnext := execKeyexp_of_holds (s := s.withOutside p v) hK
    generalize expandKey K = ws at hnext ⊢
    exact hnext
  | ark r =>
    obtain ⟨hr, K, S, hK, hS, rfl⟩ := execArk_next h
    exact execArk_of_holds (s := s.withOutside p v) hr hK hS
  | sub | invsub | shr | invshr | mix | invmix =>
    obtain ⟨S, hS, rfl⟩ := roundTransform_next h
    exact roundTransform_of_holds (s := s.withOutside p v) _ hS
  | store =>
    obtain ⟨S, hS, rfl⟩ := execStore_next h
    exact execStore_of_holds (s := s.withOutside p v) hS

theorem step_withOutside {s t : State} (hr : s.ports.resetReq = false) (hb : s.busy = true) (h : step s = .next t)
    {p : Ports} (hp : p.resetReq = false) (v : SubUnit) : step (s.withOutside p v) = .next (t.withOutside p v) := by
  rcases step_cases h with ⟨hr', -⟩ | ⟨-, hb', -⟩ | ⟨-, hb', -⟩ | ⟨-, -, d, u, i, hd, hw, hu, hexec⟩
  · simp [hr] at hr'
  · simp [hb] at hb'
  · simp [hb] at hb'
  · rw [step_busy (s := s.withOutside p v) hp hb, engineStep_of_fetch (fetch_of_word (s := s.withOutside p v) hd hw) hu]
    exact exec_withOutside hb hu hexec p v

/-- No step of the engine uses the two fields of the substitution unit. -/
theorem step_subUnit {s t : State} (h : step s = .next t) : t.subUnit = s.subUnit := by
  cases step_effect h <;> rfl

/-- Settles O55: `step_withOutside` with the substitution unit as it is. -/
theorem busyEngineIgnoresTheCommandPorts : Obligations.BusyEngineIgnoresTheCommandPorts := by
  intro s t p q hb hp hq h
  have hstep := step_withOutside (s := s.drive p) hp hb h hq s.subUnit
  have hunit : t.withOutside q s.subUnit = t.drive q := by
    rw [← State.drive_subUnit s p, ← step_subUnit h]
    rfl
  rwa [hunit] at hstep

/-- A busy engine fetches no `LOAD`, and goes on or ends the operation. -/
theorem step_of_busy {s t : State} (hr : s.ports.resetReq = false) (hb : s.busy = true) (h : step s = .next t) :
    fetch s ≠ .ok 0x20#8 ∧ (t.busy = true ∨ (t.busy = false ∧ t.done = true)) := by
  cases step_effect h with
  | reset hr' => simp [hr] at hr'
  | idle _ hb' => simp [hb] at hb'
  | accepted _ hb' => simp [hb] at hb'
  | expanded _ _ hf => exact ⟨by simp [hf], .inl hb⟩
  | transformed _ _ _ hf hu => exact ⟨by simpa [hf] using hu.2, .inl hb⟩
  | stored _ _ hf => exact ⟨by simp [hf], .inr ⟨rfl, rfl⟩⟩

theorem offerCommand_of_not_accepting {s : State} (h : s.ports.cmdValid = false ∨ cmdReady s = false) (d : Bool) :
    offerCommand d s = .next s := by
  rw [offerCommand, if_neg]
  simpa [accepting, imp_iff_not_or] using h

theorem step_of_ready {s : State} {d : Bool} (hv : s.ports.cmdValid = true) (hready : cmdReady s = true)
    (hd : s.ports.cmdFwd = d) (hr : s.ports.resetReq = false) :
    step s = exec (if d then .encrypt else .decrypt) s ∧ step s = exec .load s ∧
      ∃ t : State, step s = .next t ∧ LoadedFrom d s t := by
  have hb : s.busy = false := by simpa [cmdReady] using hready
  have hstep := step_accept hr hb hv
  have hcmd : exec (if d then .encrypt else .decrypt) s = offerCommand d s := by cases d <;> rfl
  subst hd
  refine ⟨?_, hstep.trans (exec_load_of_ready hb hv).symm, _, hstep, loadedFrom_loadFrom _ s⟩
  rw [hstep, hcmd, offerCommand, if_pos (accepting_iff.2 ⟨hb, hv⟩)]

/-- Settles O13; that a waiting command has no effect on an operation is a case of O55. -/
theorem commandsAreAcceptedOnlyWhenReady : Obligations.CommandsAreAcceptedOnlyWhenReady :=
  ⟨fun _ _ => step_of_ready, fun _ h => ⟨offerCommand_of_not_accepting h true, offerCommand_of_not_accepting h false⟩,
    fun _ _ => step_of_busy, fun s t p hb hp => busyEngineIgnoresTheCommandPorts s t p _ hb hp hp⟩

end Sys2Proof.Machine
end

section
/-! The invariant: every step keeps it and none faults under it; so runs go on, and what they do is independent of block and
key and of what came before. -/

namespace Sys2Proof.Machine

/-! ## The two halves of the invariant -/

theorem inv_of_inOperation {s : State} (hw : s.w.wf = true) (hb : s.busy = true) (h : s.InOperation) : s.Inv :=
  ⟨hw, by rwa [if_pos hb]⟩

theorem inv_of_idle {s : State} (hb : s.busy = false) (h : s.Idle) : s.Inv := by
  obtain ⟨hupc, hst, hkey, hw, hout⟩ := h
  refine ⟨by rw [hw]; rfl, ?_⟩
  rw [if_neg (by simp [hb])]
  exact ⟨hupc, hst, hkey, hw, hout⟩

theorem State.Inv.inOperation {s : State} (h : s.Inv) (hb : s.busy = true) : s.InOperation := by
  obtain ⟨-, hphase⟩ := h
  rwa [if_pos hb] at hphase

theorem State.Inv.idle {s : State} (h : s.Inv) (hb : s.busy = false) : s.Idle := by
  obtain ⟨-, hphase⟩ := h
  rwa [if_neg (by simp [hb])] at hphase

/-! ## What the events that begin and end an operation leave -/

theorem resetEvent_inv (s : State) : (resetEvent s).Inv :=
  inv_of_idle rfl ⟨rfl, holdsNothing_noBlock, holdsNothing_noBlock, rfl, holdsNothing_noBlock⟩

theorem loadFrom_inv (d : Bool) (s : State) : (loadFrom d s).Inv :=
  inv_of_inOperation rfl rfl (loadFrom_inOperation d s)

theorem storedFrom_inv (S : Block) (s : State) : (storedFrom S s).Inv := by
  have hout : (readCells (storedFrom S s).out).isSome = true := by rw [readCells_of_holds (holds_storedFrom_out S s)]; rfl
  exact inv_of_idle rfl ⟨rfl, holdsNothing_noBlock, holdsNothing_noBlock, rfl, hout⟩

/-- Settles O48: the state after reset is what the reset event makes of it. -/
theorem resetMeetsTheInvariant : Obligations.ResetMeetsTheInvariant := resetEvent_inv State.reset

/-! ## Every step keeps it -/

/-- A step that leaves `BUSY` at 1 goes on with the operation. -/
theorem step_keeps_inOperation {s t : State} (h : s.InOperation) (hb : s.busy = true) (hr : s.ports.resetReq = false)
    (ht : step s = .next t) (htb : t.busy = true) : t.InOperation := by
  obtain ⟨t', ht', hat⟩ := step_inOperation h hb hr
  obtain rfl := Host.Outcome.next.inj (ht.symm.trans ht')
  by_cases hn : s.upc.toNat + 1 ≤ 42
  · obtain ⟨-, hop, -⟩ := (atIndex_iff_inOperation hn).1 hat
    exact hop
  · obtain ⟨hidle, -⟩ := (atIndex_iff_ended (by omega)).1 hat
    exact absurd (htb.symm.trans hidle) (by simp)

theorem step_keeps_inv {s t : State} (h : s.Inv) (ht : step s = .next t) : t.Inv := by
  cases step_effect ht with
  | reset => exact resetEvent_inv s
  | idle => exact h
  | accepted => exact loadFrom_inv _ s
  | stored => exact storedFrom_inv _ s
  | @expanded K ws hr hb =>
    have hwf : (s.writeW ws).advance.w.wf = true := by
      rw [State.advance_w, State.writeW_w]
      exact Memory.wf_writeWords _ _ _ h.1 (by simp)
    exact inv_of_inOperation hwf hb (step_keeps_inOperation (h.inOperation hb) hb hr ht hb)
  | transformed T hr hb => exact inv_of_inOperation h.1 hb (step_keeps_inOperation (h.inOperation hb) hb hr ht hb)

/-- Settles O49: driving the ports touches no register, and `step_keeps_inv` says the rest. -/
theorem everyStepKeepsTheInvariant : Obligations.EveryStepKeepsTheInvariant :=
  fun s _ p h ht => step_keeps_inv (s := s.drive p) h ht

/-! ## No step faults under it -/

theorem step_next_of_inv {s : State} (h : s.Inv) : ∃ t : State, step s = .next t := by
  cases hr : s.ports.resetReq with
  | true => exact ⟨_, step_reset hr⟩
  | false =>
    cases hb : s.busy with
    | true =>
      obtain ⟨t, ht, -⟩ := step_inOperation (h.inOperation hb) hb hr
      exact ⟨t, ht⟩
    | false =>
      cases hv : s.ports.cmdValid with
      | true => exact ⟨_, step_accept hr hb hv⟩
      | false => exact ⟨_, step_idle hr hb hv⟩

theorem step_drive_of_inv {s : State} (h : s.Inv) (p : Ports) : ∃ t : State, step (s.drive p) = .next t ∧ t.Inv := by
  obtain ⟨t, ht⟩ := step_next_of_inv (s := s.drive p) h
  exact ⟨t, ht, step_keeps_inv (s := s.drive p) h ht⟩

/-- Settles O50. -/
theorem noStepFaultsUnderTheInvariant : Obligations.NoStepFaultsUnderTheInvariant :=
  fun s p h => step_next_of_inv (s := s.drive p) h

/-! ## What control and registers depend on -/

/-- The fetch reads `FWD` and `UPC`. -/
theorem fetch_congr {s₁ s₂ : State} (hfwd : s₁.fwd = s₂.fwd) (hupc : s₁.upc = s₂.upc) : fetch s₁ = fetch s₂ := by
  simp [fetch, hfwd, hupc]

/-- Settles O54: `controlAfter` reads the control registers, the fetch, and of the ports neither block nor key. -/
theorem controlIsDataIndependent : Obligations.ControlIsDataIndependent := by
  rintro s₁ s₂ p b k h₁ h₂ ⟨hfwd, hupc, hbusy, hdone⟩
  obtain ⟨t₁, ht₁, -⟩ := step_drive_of_inv h₁ p
  obtain ⟨t₂, ht₂, -⟩ := step_drive_of_inv h₂ { p with cmdBlock := b, cmdKey := k }
  have hfetch : fetch (s₁.drive p) = fetch (s₂.drive { p with cmdBlock := b, cmdKey := k }) := fetch_congr hfwd hupc
  have hc : (s₁.drive p).control = (s₂.drive { p with cmdBlock := b, cmdKey := k }).control := by
    simp [State.control, hfwd, hupc, hbusy, hdone]
  have hcontrol : t₁.control = t₂.control := by
    rw [step_control ht₁, step_control ht₂, hfetch, hc]
    rfl
  simp only [State.control, Prod.mk.injEq] at hcontrol
  exact ⟨t₁, t₂, ht₁, ht₂, hcontrol⟩

theorem loadFrom_sameRegisters (d : Bool) {s₁ s₂ : State} (hp : s₁.ports = s₂.ports) :
    SameRegisters (loadFrom d s₁) (loadFrom d s₂) := by
  simp [SameRegisters, hp]

/-- With the same registers and the same ports a step gives the same registers. -/
theorem step_sameRegisters {s₁ s₂ t₁ t₂ : State} (hs : SameRegisters s₁ s₂) (hp : s₁.ports = s₂.ports)
    (h₁ : step s₁ = .next t₁) (h₂ : step s₂ = .next t₂) : SameRegisters t₁ t₂ := by
  obtain ⟨v, rfl⟩ : ∃ v, s₂ = s₁.withOutside s₁.ports v := ⟨_, hp ▸ eq_withOutside_of_sameRegisters hs⟩
  have next_eq {x y t : State} (hx : step x = .next y) (h : step x = .next t) : t = y :=
    Host.Outcome.next.inj (h.symm.trans hx)
  cases step_effect h₁ with
  | reset hr =>
    rw [next_eq (step_reset (s := s₁.withOutside s₁.ports v) hr) h₂]
    exact ⟨rfl, rfl, rfl, rfl, rfl, rfl, rfl, rfl⟩
  | idle hr hb hv => rwa [next_eq (step_idle (s := s₁.withOutside s₁.ports v) hr hb hv) h₂]
  | accepted hr hb hv =>
    rw [next_eq (step_accept (s := s₁.withOutside s₁.ports v) hr hb hv) h₂]
    exact loadFrom_sameRegisters s₁.ports.cmdFwd rfl
  | expanded hr hb | transformed _ hr hb | stored hr hb =>
    rw [next_eq (step_withOutside hr hb h₁ hr v) h₂]
    exact sameRegisters_withOutside _ _ _

/-! ## Runs -/

theorem runDriven_cons_of_next_iff {s t : State} {p : Ports} {ps : List Ports} :
    runDriven (p :: ps) s = .next t ↔ ∃ x : State, step (s.drive p) = .next x ∧ runDriven ps x = .next t := by
  rw [runDriven]
  cases step (s.drive p) <;> simp

/-- A run from a state of the invariant goes on to the end of its list, in a state of the invariant. -/
theorem runDriven_of_inv (ps : List Ports) {s : State} (h : s.Inv) : ∃ t : State, runDriven ps s = .next t ∧ t.Inv := by
  induction ps generalizing s with
  | nil => exact ⟨s, rfl, h⟩
  | cons p ps ih =>
    obtain ⟨x, hx, hinv⟩ := step_drive_of_inv h p
    rw [runDriven_cons_of_next hx]
    exact ih hinv

theorem runDriven_sameRegisters (ps : List Ports) {s₁ s₂ t₁ t₂ : State} (hs : SameRegisters s₁ s₂)
    (h₁ : runDriven ps s₁ = .next t₁) (h₂ : runDriven ps s₂ = .next t₂) : SameRegisters t₁ t₂ := by
  induction ps generalizing s₁ s₂ with
  | nil =>
    obtain rfl := Host.Outcome.next.inj h₁
    obtain rfl := Host.Outcome.next.inj h₂
    exact hs
  | cons p ps ih =>
    obtain ⟨x₁, hx₁, hrun₁⟩ := runDriven_cons_of_next_iff.1 h₁
    obtain ⟨x₂, hx₂, hrun₂⟩ := runDriven_cons_of_next_iff.1 h₂
    exact ih (step_sameRegisters (s₁ := s₁.drive p) (s₂ := s₂.drive p) hs rfl hx₁ hx₂) hrun₁ hrun₂

/-- Settles O47: acceptance leaves the same registers whatever the engines held, and equal registers stay equal. -/
theorem operationsAreIndependent : Obligations.OperationsAreIndependent := by
  intro s₁ s₂ p ps hb₁ hb₂ hv hr
  have hload (s : State) (hb : s.busy = false) : step (s.drive p) = .next (loadFrom p.cmdFwd (s.drive p)) :=
    step_accept (s := s.drive p) hr hb hv
  obtain ⟨t₁, ht₁, -⟩ := runDriven_of_inv ps (loadFrom_inv p.cmdFwd (s₁.drive p))
  obtain ⟨t₂, ht₂, -⟩ := runDriven_of_inv ps (loadFrom_inv p.cmdFwd (s₂.drive p))
  have hsame : SameRegisters (loadFrom p.cmdFwd (s₁.drive p)) (loadFrom p.cmdFwd (s₂.drive p)) :=
    loadFrom_sameRegisters p.cmdFwd rfl
  exact ⟨t₁, t₂, (runDriven_cons_of_next (hload s₁ hb₁) ps).trans ht₁,
    (runDriven_cons_of_next (hload s₂ hb₂) ps).trans ht₂, runDriven_sameRegisters ps hsame ht₁ ht₂⟩

/-! ## Reset -/

/-- An engine without an operation and without a result, as the reset event leaves it. -/
def Cleared (s : State) : Prop :=
  s.busy = false ∧ s.done = false ∧ HoldsNothing s.st ∧ HoldsNothing s.key ∧ (∀ a : Nat, s.w.read a = none) ∧
    HoldsNothing s.out

theorem cleared_resetEvent (s : State) : Cleared (resetEvent s) :=
  ⟨rfl, rfl, holdsNothing_noBlock, holdsNothing_noBlock, fun _ => rfl, holdsNothing_noBlock⟩

/-- Without a command a cleared engine has only idle steps and resets. -/
theorem step_cleared {s : State} (h : Cleared s) {p : Ports} (hp : p.cmdValid = false) :
    ∃ t : State, step (s.drive p) = .next t ∧ Cleared t := by
  have hb : s.busy = false := h.1
  cases hr : p.resetReq with
  | true => exact ⟨_, step_reset (s := s.drive p) hr, cleared_resetEvent _⟩
  | false => exact ⟨_, step_idle (s := s.drive p) hr hb hp, h⟩

theorem runDriven_cleared (ps : List Ports) {s : State} (h : Cleared s) (hps : ∀ q ∈ ps, q.cmdValid = false) :
    ∃ t : State, runDriven ps s = .next t ∧ Cleared t := by
  induction ps generalizing s with
  | nil => exact ⟨s, rfl, h⟩
  | cons p ps ih =>
    obtain ⟨hp, hps⟩ := List.forall_mem_cons.1 hps
    obtain ⟨x, hx, hcleared⟩ := step_cleared h hp
    rw [runDriven_cons_of_next hx]
    exact ih hcleared hps

/-- A result is given up for a reset or for a new command only. -/
theorem result_given_up {s t : State} (h : step s = .next t) (hs : s.done = true) (ht : t.done = false) :
    s.ports.resetReq = true ∨ accepting s = true := by
  cases step_effect h with
  | reset hr => exact .inl hr
  | accepted _ hb hv => exact .inr (accepting_iff.2 ⟨hb, hv⟩)
  | idle | expanded | transformed => exact absurd (hs.symm.trans ht) (by simp)
  | stored => exact absurd ht (by simp [storedFrom])

/-- Settles O9: the reset clears the engine, and `runDriven_cleared` follows it from there. -/
theorem resetAbandonsAndDiscards : Obligations.ResetAbandonsAndDiscards := by
  refine ⟨fun s p ps hp hps => ?_, fun _ _ => result_given_up⟩
  rw [runDriven_cons_of_next (step_reset (s := s.drive p) hp)]
  exact runDriven_cleared ps (cleared_resetEvent _) hps

end Sys2Proof.Machine
end

section
/-! The multiplier is the multiplication of the field: every byte comes from 1 by doubling and XOR, so its laws are proved by
induction on how the first factor is made. -/

namespace Sys2Proof.Machine

/-! ## Induction over bytes -/

/-- What doubling and XOR keep, the iterations of the multiplier keep. -/
theorem foldl_gfStep_induction {P : Byte → Prop} (hdouble : ∀ a, P a → P (xtime a))
    (hxor : ∀ a b, P a → P b → P (a ^^^ b)) (b : Byte) (ks : List Nat) {x a : Byte} (hx : P x) (ha : P a) : P (ks.foldl (gfStep b) (x, a)).1 := by
  induction ks generalizing x a with
  | nil => exact hx
  | cons k ks ih =>
    refine ih ?_ (hdouble a ha)
    split
    · exact hxor x a hx ha
    · exact hx

/-- Every byte comes from 1 by doubling and XOR: it is `gf_multiply` of 1 and itself. -/
theorem byte_induction {P : Byte → Prop} (one : P 0x01#8) (double : ∀ a, P a → P (xtime a))
    (xor : ∀ a b, P a → P b → P (a ^^^ b)) (a : Byte) : P a := by
  have hzero : P 0x00#8 := xor 1 1 one one
  rw [← gfMultiply_one_left a]
  exact foldl_gfStep_induction double xor a _ hzero one

/-! ## Laws -/

/-- Doubling the running operand and the accumulator doubles the result. -/
theorem foldl_gfStep_xtime (b : Byte) (ks : List Nat) (x a : Byte) :
    (ks.foldl (gfStep b) (xtime x, xtime a)).1 = xtime (ks.foldl (gfStep b) (x, a)).1 := by
  induction ks generalizing x a with
  | nil => rfl
  | cons k ks ih =>
    simp only [List.foldl_cons, gfStep]
    split
    · rw [← xtime_xor, ih]
    · exact ih ..

theorem gfMultiply_xtime_left (a b : Byte) : gfMultiply (xtime a) b = xtime (gfMultiply a b) :=
  foldl_gfStep_xtime b _ 0 a

theorem gfMultiply_one_right (a : Byte) : gfMultiply a 0x01#8 = a := by
  simp [gfMultiply, gfStep]

theorem gfMultiply_xtime_right (a b : Byte) : gfMultiply a (xtime b) = xtime (gfMultiply a b) := by
  induction a using byte_induction with
  | one => rw [gfMultiply_one_left, gfMultiply_one_left]
  | double a ih => rw [gfMultiply_xtime_left, gfMultiply_xtime_left, ih]
  | xor a a' ih ih' => rw [gfMultiply_xor_left, gfMultiply_xor_left, ih, ih', xtime_xor]

theorem gfMultiply_xor_right (a b c : Byte) : gfMultiply a (b ^^^ c) = gfMultiply a b ^^^ gfMultiply a c := by
  induction a using byte_induction with
  | one => simp only [gfMultiply_one_left]
  | double a ih => simp only [gfMultiply_xtime_left, ih, xtime_xor]
  | xor a a' ih ih' =>
    simp only [gfMultiply_xor_left, ih, ih']
    ac_rfl

theorem gfMultiply_comm (a b : Byte) : gfMultiply a b = gfMultiply b a := by
  induction a using byte_induction with
  | one => rw [gfMultiply_one_left, gfMultiply_one_right]
  | double a ih => rw [gfMultiply_xtime_left, gfMultiply_xtime_right, ih]
  | xor a a' ih ih' => rw [gfMultiply_xor_left, gfMultiply_xor_right, ih, ih']

theorem gfMultiply_assoc (a b c : Byte) : gfMultiply (gfMultiply a b) c = gfMultiply a (gfMultiply b c) := by
  induction a using byte_induction with
  | one => rw [gfMultiply_one_left, gfMultiply_one_left]
  | double a ih => simp only [gfMultiply_xtime_left, ih]
  | xor a a' ih ih' => simp only [gfMultiply_xor_left, ih, ih']

/-- Settles O36. -/
theorem multiplicationDistributesAndAssociates : Obligations.MultiplicationDistributesAndAssociates := fun a b c =>
  ⟨gfMultiply_xor_right a b c, gfMultiply_xor_left a b c, gfMultiply_assoc a b c⟩

theorem gfMultiply_zero_right (a : Byte) : gfMultiply a 0x00#8 = 0x00#8 := by
  simp [gfMultiply, gfStep]

theorem gfMultiply_zero_left (a : Byte) : gfMultiply 0x00#8 a = 0x00#8 := by
  rw [gfMultiply_comm, gfMultiply_zero_right]

/-- Settles O34: the product by 2 is one doubling (`gfMultiply_two`). -/
theorem xtimeIsMultiplicationByTwo : Obligations.XtimeIsMultiplicationByTwo :=
  ⟨fun a => (gfMultiply_two a).symm, fun _ => rfl, rfl, rfl, rfl, rfl⟩

/-- Settles O38: the set bits of each constant say which doublings of `s` are added. -/
theorem matrixConstantsByDoubling : Obligations.MatrixConstantsByDoubling := by
  intro s
  simp only [fun c : Byte => gfMultiply_comm c s]
  refine ⟨gfMultiply_one_right s, gfMultiply_two s, ?_, ?_, ?_, ?_, ?_⟩ <;> simp [gfMultiply, gfStep] <;> ac_rfl

/-! ## Inverses -/

/-- The inverse of the affine map behind the forward box (R111). -/
def affineInverse (s : Byte) : Byte := s.rotateLeft 1 ^^^ s.rotateLeft 3 ^^^ s.rotateLeft 6 ^^^ 0x05#8

/-- The multiplicative inverse of a byte, and 0 for 0: the byte whose affine image the forward box holds. -/
def gfInverse (x : Byte) : Byte := affineInverse (substitute x true)

/-- R111, R112: the table is built on multiplicative inverses. -/
theorem gfMultiply_gfInverse : ∀ x : Byte, x ≠ 0x00#8 → gfMultiply x (gfInverse x) = 0x01#8 := by decide

/-- Settles O35. -/
theorem multiplierLaws : Obligations.MultiplierLaws :=
  ⟨fun a => ⟨gfMultiply_one_right a, gfMultiply_zero_right a, gfMultiply_zero_left a, gfMultiply_one_left a⟩,
    gfMultiply_comm, fun a ha => ⟨gfInverse a, gfMultiply_gfInverse a ha⟩, by decide, by decide, by decide, by decide⟩

/-- Inverses are unique. -/
theorem eq_gfInverse {a b : Byte} (ha : a ≠ 0x00#8) (h : gfMultiply a b = 0x01#8) : b = gfInverse a := by
  calc b = gfMultiply (gfMultiply a (gfInverse a)) b := by rw [gfMultiply_gfInverse a ha, gfMultiply_one_left]
    _ = gfMultiply (gfInverse a) (gfMultiply a b) := by rw [gfMultiply_comm a (gfInverse a), gfMultiply_assoc]
    _ = gfInverse a := by rw [h, gfMultiply_one_right]

/-! ## The forward box (R111) -/

/-- Bit `k` of the linear part of the affine map. -/
def affineBit (y : Byte) (k : Fin 8) : Bool :=
  (((y.getLsbD k ^^ y.getLsbD ((k.val + 4) % 8)) ^^ y.getLsbD ((k.val + 5) % 8)) ^^ y.getLsbD ((k.val + 6) % 8)) ^^
    y.getLsbD ((k.val + 7) % 8)

theorem getLsbD_eq_affineBit : ∀ (s : Byte) (k : Fin 8),
    s.getLsbD k = (affineBit (affineInverse s) k ^^ (0x63#8).getLsbD k) := by decide

/-- A bit of a constant on either side of an equation. -/
theorem decide_eq_xor_of_eq : ∀ {b e c : Bool}, b = (e ^^ c) → (decide (b = e) ^^ c) = true := by decide

/-- Settles O32: the byte the premise speaks of is `gfInverse x`. In the statement `^^` binds weaker than `=`, so that the
bit of the constant stands outside the equation, which says the same. -/
theorem forwardBoxIsInverseThenAffine : Obligations.ForwardBoxIsInverseThenAffine := by
  intro x y hxy k
  have hy : y = gfInverse x := by
    split at hxy
    · next hx =>
      subst hx hxy
      decide
    · next hx => exact eq_gfInverse hx hxy
  subst hy
  exact decide_eq_xor_of_eq (getLsbD_eq_affineBit (substitute x true) k)

/-! ## The multiplier and polynomials -/

/-- The polynomial of a byte: bit `k` is the coefficient of `X ^ k`. -/
noncomputable def bytePoly (a : Byte) : Polynomial (ZMod 2) :=
  ∑ k : Fin 8, if a.getLsbD k.val = true then Polynomial.X ^ k.val else 0

/-- The modulus 0x11B. -/
noncomputable def modulus : Polynomial (ZMod 2) :=
  Polynomial.X ^ 8 + Polynomial.X ^ 4 + Polynomial.X ^ 3 + Polynomial.X + 1

theorem bytePoly_xor (a b : Byte) : bytePoly (a ^^^ b) = bytePoly a + bytePoly b := by
  rw [bytePoly, bytePoly, bytePoly, ← Finset.sum_add_distrib]
  refine Finset.sum_congr rfl fun k _ => ?_
  rw [BitVec.getLsbD_xor]
  cases a.getLsbD k <;> cases b.getLsbD k <;> simp [CharTwo.add_self_eq_zero]

theorem bytePoly_one : bytePoly 0x01#8 = 1 := by
  simp [bytePoly]

/-- Multiplication by `X` shifts the byte and carries bit 7 out. -/
theorem X_mul_bytePoly (a : Byte) :
    Polynomial.X * bytePoly a = bytePoly (a <<< 1) + if a.getLsbD 7 = true then Polynomial.X ^ 8 else 0 := by
  simp [bytePoly, Fin.sum_univ_eight, mul_add, ← pow_succ', ← pow_two]

theorem bytePoly_reduction : bytePoly 0x1b#8 = modulus + Polynomial.X ^ 8 := by
  rw [← CharTwo.sub_eq_add]
  simp [bytePoly, modulus, Fin.sum_univ_eight]
  ring

/-- The residue class of a byte's polynomial. -/
noncomputable def residue (a : Byte) : AdjoinRoot modulus := AdjoinRoot.mk modulus (bytePoly a)

theorem residue_xor (a b : Byte) : residue (a ^^^ b) = residue a + residue b := by
  rw [residue, bytePoly_xor, map_add, residue, residue]

theorem residue_one : residue 0x01#8 = 1 := by rw [residue, bytePoly_one, map_one]

/-- The byte 0x1B that `xtime` adds is what is left of `X ^ 8`. -/
theorem residue_xtime (a : Byte) : residue (xtime a) = AdjoinRoot.root modulus * residue a := by
  have hX : AdjoinRoot.root modulus * residue a = AdjoinRoot.mk modulus (Polynomial.X * bytePoly a) := by
    rw [map_mul, AdjoinRoot.mk_X, residue]
  rw [hX, X_mul_bytePoly, residue, xtime]
  split
  · rw [bytePoly_xor, bytePoly_reduction, map_add, map_add, map_add, AdjoinRoot.mk_self, zero_add]
  · rw [add_zero]

theorem residue_gfMultiply (a b : Byte) : residue (gfMultiply a b) = residue a * residue b := by
  induction a using byte_induction with
  | one => rw [gfMultiply_one_left, residue_one, one_mul]
  | double a ih => rw [gfMultiply_xtime_left, residue_xtime, residue_xtime, ih, mul_assoc]
  | xor a a' ih ih' => rw [gfMultiply_xor_left, residue_xor, residue_xor, ih, ih', add_mul]

/-- Settles O37: equal residue classes differ by a multiple of the modulus. -/
theorem multiplierIsPolynomialProduct : Obligations.MultiplierIsPolynomialProduct := by
  intro a b
  have hclass : AdjoinRoot.mk modulus (bytePoly a * bytePoly b) = AdjoinRoot.mk modulus (bytePoly (gfMultiply a b)) := by
    rw [map_mul]
    exact (residue_gfMultiply a b).symm
  obtain ⟨q, hq⟩ := AdjoinRoot.mk_eq_mk.1 hclass
  refine ⟨q, ?_⟩
  change bytePoly a * bytePoly b = q * modulus + bytePoly (gfMultiply a b)
  rw [mul_comm q, ← hq, sub_add_cancel]

end Sys2Proof.Machine
end

section
/-! Each transformation undoes its inverse, and so does each pipeline. -/

namespace Sys2Proof.Machine

/-! ## The inverse pairs (R153) -/

theorem subBytes_subBytes (S : Block) (d : Bool) : subBytes (subBytes S d) (!d) = S := by
  ext i hi : 1
  simp [subBytes, substitute_substitute]

/-- Rotating a row back finds the column it came from. -/
theorem shiftSource_shiftSource (d : Bool) (r c : Nat) (hr : r < 4) (hc : c < 4) :
    shiftSource d r (shiftSource (!d) r c) = c := by
  cases d <;> simp [shiftSource] <;> omega

theorem shiftRows_shiftRows (S : Block) (d : Bool) : shiftRows (shiftRows S d) (!d) = S := by
  refine block_ext fun r c => ?_
  rw [byteAt_shiftRows, byteAt_shiftRows]
  congr 1
  exact Fin.ext (shiftSource_shiftSource d r c r.isLt c.isLt)

/-- Entry `j` of the product of a row and a matrix. -/
def rowProduct (row : Vector Byte 4) (m : ByteMatrix) (j : Fin 4) : Byte := rowTimes row m[0][j] m[1][j] m[2][j] m[3][j]

/-- The product of two matrices, the first on the left, is the unit matrix (R150). -/
abbrev InverseMatrices (n m : ByteMatrix) : Prop :=
  ∀ r j : Fin 4, rowProduct n[r] m j = if r = j then 0x01#8 else 0x00#8

theorem invmixc_mixc : InverseMatrices invmixc mixc := by decide

theorem mixc_invmixc : InverseMatrices mixc invmixc := by decide

/-- Settles O39, one order after the other. -/
theorem matricesAreInverse : Obligations.MatricesAreInverse := fun r j => ⟨invmixc_mixc r j, mixc_invmixc r j⟩

/-- A row applied to a matrix applied to a column is their product applied to the column. -/
theorem rowTimes_rowTimes (row : Vector Byte 4) (m : ByteMatrix) (s0 s1 s2 s3 : Byte) :
    rowTimes row (rowTimes m[0] s0 s1 s2 s3) (rowTimes m[1] s0 s1 s2 s3) (rowTimes m[2] s0 s1 s2 s3)
        (rowTimes m[3] s0 s1 s2 s3) =
      gfMultiply (rowProduct row m 0) s0 ^^^ gfMultiply (rowProduct row m 1) s1 ^^^
        gfMultiply (rowProduct row m 2) s2 ^^^ gfMultiply (rowProduct row m 3) s3 := by
  simp only [rowProduct, rowTimes, gfMultiply_xor_left, gfMultiply_xor_right, gfMultiply_assoc]
  ac_rfl

theorem matrixTimes_matrixTimes {n m : ByteMatrix} (h : InverseMatrices n m) (S : Block) :
    matrixTimes n (matrixTimes m S) = S := by
  refine block_ext fun r c => ?_
  simp only [byteAt_matrixTimes]
  refine (rowTimes_rowTimes n[r] m _ _ _ _).trans ?_
  rw [h r 0, h r 1, h r 2, h r 3]
  obtain rfl | rfl | rfl | rfl : r = 0 ∨ r = 1 ∨ r = 2 ∨ r = 3 := by omega
  all_goals simp [gfMultiply_one_left, gfMultiply_zero_left]

theorem mixColumns_mixColumns (S : Block) (d : Bool) : mixColumns (mixColumns S d) (!d) = S := by
  cases d
  · exact matrixTimes_matrixTimes mixc_invmixc S
  · exact matrixTimes_matrixTimes invmixc_mixc S

/-- Settles O40. -/
theorem transformationsAreInversePairs : Obligations.TransformationsAreInversePairs := fun S K d =>
  ⟨subBytes_subBytes S d, shiftRows_shiftRows S d, mixColumns_mixColumns S d, addRoundKey_addRoundKey S K⟩

/-! ## The pipelines -/

/-- Undoing the last of a list of steps first undoes them all; `h` is what lies between the two directions. -/
theorem foldl_reverse_foldl {α β γ : Type} {f : α → γ → α} {g : β → γ → β} {h : α → β}
    (hundo : ∀ x r, g (h (f x r)) r = h x) (l : List γ) (x : α) : l.reverse.foldl g (h (l.foldl f x)) = h x := by
  induction l generalizing x with
  | nil => rfl
  | cons r l ih => rw [List.reverse_cons, List.foldl_append, List.foldl_cons, List.foldl_nil, List.foldl_cons, ih, hundo]

/-- The first half of an encryption round, which the first half of a decryption round undoes. -/
def forwardHalf (S : Block) : Block := shiftRows (subBytes S true) true

/-- The first half of a decryption round. -/
def inverseHalf (S : Block) : Block := subBytes (shiftRows S false) false

theorem inverseHalf_forwardHalf (S : Block) : inverseHalf (forwardHalf S) = S := by
  rw [inverseHalf, forwardHalf, show shiftRows (shiftRows (subBytes S true) true) false = subBytes S true from
    shiftRows_shiftRows _ true]
  exact subBytes_subBytes S true

theorem forwardHalf_inverseHalf (S : Block) : forwardHalf (inverseHalf S) = S := by
  rw [inverseHalf, forwardHalf, show subBytes (subBytes (shiftRows S false) false) true = shiftRows S false from
    subBytes_subBytes _ false]
  exact shiftRows_shiftRows S false

/-- A decryption round undoes an encryption round, seen from behind the first half of the next round. -/
theorem decryptRound_encryptRound (S K : Block) : decryptRound (forwardHalf (encryptRound S K)) K = forwardHalf S := by
  change mixColumns (addRoundKey (inverseHalf (forwardHalf (encryptRound S K))) K) false = _
  rw [inverseHalf_forwardHalf, encryptRound, addRoundKey_addRoundKey]
  exact mixColumns_mixColumns _ true

theorem encryptRound_decryptRound (S K : Block) : encryptRound (inverseHalf (decryptRound S K)) K = inverseHalf S := by
  change addRoundKey (mixColumns (forwardHalf (inverseHalf (decryptRound S K))) true) K = _
  rw [forwardHalf_inverseHalf, decryptRound,
    show mixColumns (mixColumns (addRoundKey (subBytes (shiftRows S false) false) K) false) true = _ from
      mixColumns_mixColumns _ false, addRoundKey_addRoundKey]
  rfl

/-- The middle rounds of encryption, with the round keys of `K`. -/
theorem encryptBlock_eq (M K : Block) : encryptBlock M K =
    addRoundKey (forwardHalf (middleRounds.foldl (fun x r => encryptRound x (roundKey (expandKey K) r))
      (addRoundKey M (roundKey (expandKey K) 0)))) (roundKey (expandKey K) 10) := rfl

theorem decryptBlock_eq (C K : Block) : decryptBlock C K =
    addRoundKey (inverseHalf (middleRounds.reverse.foldl (fun x r => decryptRound x (roundKey (expandKey K) r))
      (addRoundKey C (roundKey (expandKey K) 10)))) (roundKey (expandKey K) 0) := rfl

theorem decryptBlock_encryptBlock (M K : Block) : decryptBlock (encryptBlock M K) K = M := by
  rw [decryptBlock_eq, encryptBlock_eq, addRoundKey_addRoundKey,
    foldl_reverse_foldl (h := forwardHalf) fun S r => decryptRound_encryptRound S (roundKey (expandKey K) r),
    inverseHalf_forwardHalf, addRoundKey_addRoundKey]

theorem encryptBlock_decryptBlock (C K : Block) : encryptBlock (decryptBlock C K) K = C := by
  have hmid := foldl_reverse_foldl (f := fun S r => decryptRound S (roundKey (expandKey K) r))
    (g := fun S r => encryptRound S (roundKey (expandKey K) r)) (h := inverseHalf)
    (fun S r => encryptRound_decryptRound S (roundKey (expandKey K) r)) middleRounds.reverse
  rw [List.reverse_reverse] at hmid
  rw [encryptBlock_eq, decryptBlock_eq, addRoundKey_addRoundKey, hmid, forwardHalf_inverseHalf, addRoundKey_addRoundKey]

/-- Settles O43. -/
theorem decryptInvertsEncrypt : Obligations.DecryptInvertsEncrypt := fun M K =>
  ⟨decryptBlock_encryptBlock M K, encryptBlock_decryptBlock M K⟩

end Sys2Proof.Machine
end

section
/-! Whole operations: the micro-operations of a micro-program, one after the other, compute the cipher function of its
direction, and the operation delivers it. -/

namespace Sys2Proof.Machine

/-! ## The micro-programs as functions -/

/-- What a micro-operation makes of the State, the schedule being `ws`; the others leave it. -/
def uopEffect (ws : Schedule) (S : Block) : Instr → Block
  | .sub => subBytes S true
  | .invsub => subBytes S false
  | .shr => shiftRows S true
  | .invshr => shiftRows S false
  | .mix => mixColumns S true
  | .invmix => mixColumns S false
  | .ark r => if h : r.toNat ≤ 10 then addRoundKey S (roundKey ws ⟨r.toNat, by omega⟩) else S
  | _ => S

theorem exec_uopEffect {i : Instr} {s : State} {S : Block} {ws : Schedule} (hi : transformsState i = true)
    (hS : Holds s.st S) (hw : ScheduleIn s.w ws) : exec i s = .next (s.writeSt (uopEffect ws S i)).advance := by
  cases i with
  | sub | invsub | shr | invshr | mix | invmix => exact roundTransform_of_holds _ hS
  | ark r =>
    have hr : r.toNat ≤ 10 := of_decide_eq_true hi
    rw [uopEffect, dif_pos hr]
    exact exec_ark_of_holds hr hS (holds_roundKeyCells hw ⟨r.toNat, by omega⟩)
  | decrypt | encrypt | load | keyexp | store | invsbox | sbox => exact absurd hi (by decide)

/-- The micro-operation that adds Round Key `r`. -/
def arkOf (r : Fin 11) : Instr := .ark (BitVec.ofNat 4 r.val)

theorem uopEffect_arkOf (ws : Schedule) (S : Block) (r : Fin 11) :
    uopEffect ws S (arkOf r) = addRoundKey S (roundKey ws r) := by
  fin_cases r <;> rfl

/-- The micro-operations of the two micro-programs, round by round (R163, R164). -/
def program (d : Bool) : List Instr :=
  if d then
    [.load, .keyexp, arkOf 0] ++ middleRounds.flatMap (fun r => [.sub, .shr, .mix, arkOf r]) ++
      [.sub, .shr, arkOf 10, .store]
  else
    [.load, .keyexp, arkOf 10] ++ middleRounds.reverse.flatMap (fun r => [.invshr, .invsub, arkOf r, .invmix]) ++
      [.invshr, .invsub, arkOf 0, .store]

theorem map_decodeU_mprog (d : Bool) : (mprog d).map decodeU = (program d).map .ok := by
  cases d <;> decide

theorem program_length (d : Bool) : (program d).length = 43 := by
  cases d <;> decide

/-- The word at an index decodes to the micro-operation of the program there. -/
theorem mprogWord_of_program {d : Bool} {n : BitVec 6} {i : Instr} (h : (program d)[n.toNat]? = some i) :
    ∃ u, mprogWord d n = some u ∧ decodeU u = .ok i := by
  have hmap := congrArg (·[n.toNat]?) (map_decodeU_mprog d)
  simp only [List.getElem?_map, h, Option.map_some] at hmap
  exact Option.map_eq_some_iff.1 hmap

/-- What the micro-operations from index `n` on make of the State. -/
def finalBlock (d : Bool) (K : Block) (n : Nat) (S : Block) : Block :=
  ((program d).drop n).foldl (uopEffect (expandKey K)) S

theorem finalBlock_step {d : Bool} {n : Nat} {i : Instr} (h : (program d)[n]? = some i) (K S : Block) :
    finalBlock d K n S = finalBlock d K (n + 1) (uopEffect (expandKey K) S i) := by
  obtain ⟨hn, rfl⟩ := List.getElem?_eq_some_iff.1 h
  rw [finalBlock, List.drop_eq_getElem_cons hn, List.foldl_cons, finalBlock]

/-- The cipher function of a direction. -/
def cipherBlock (d : Bool) (B K : Block) : Block := if d then encryptBlock B K else decryptBlock B K

/-- Round by round, a micro-program is the pipeline of its direction. -/
theorem finalBlock_one (d : Bool) (B K : Block) : finalBlock d K 1 B = cipherBlock d B K := by
  cases d <;>
  · simp only [finalBlock, program, cipherBlock, Bool.false_eq_true, if_true, if_false, List.cons_append, List.nil_append,
      List.drop_succ_cons, List.drop_zero, List.foldl_cons, List.foldl_append, List.foldl_flatMap, List.foldl_nil,
      uopEffect_arkOf]
    rfl

/-! ## The steps of an operation -/

/-- The engine is at index `n` of an operation of direction `d` with key `K` that is to deliver `R`. -/
def Computing (d : Bool) (K R : Block) (n : Nat) (s : State) : Prop :=
  AtIndex n s ∧ s.fwd = some d ∧ Holds s.key K ∧ ∃ S : Block, Holds s.st S ∧ finalBlock d K n S = R

/-- The same; an `n` behind the last index says that the operation has delivered `R`. -/
def Delivering (d : Bool) (K R : Block) (n : Nat) (s : State) : Prop :=
  if n ≤ 42 then Computing d K R n s else ∃ x : State, s = storedFrom R x

theorem delivering_iff_computing {d : Bool} {K R : Block} {n : Nat} {s : State} (hn : n ≤ 42) :
    Delivering d K R n s ↔ Computing d K R n s := by
  rw [Delivering, if_pos hn]

theorem delivering_iff_delivered {d : Bool} {K R : Block} {n : Nat} {s : State} (hn : 42 < n) :
    Delivering d K R n s ↔ ∃ x : State, s = storedFrom R x := by
  rw [Delivering, if_neg (by omega)]

theorem delivering_loadFrom (d : Bool) (s : State) : Delivering d (unpack s.ports.cmdKey)
    (cipherBlock d (unpack s.ports.cmdBlock) (unpack s.ports.cmdKey)) 1 (loadFrom d s) :=
  (delivering_iff_computing (by omega)).2
    ⟨atIndex_loadFrom d s, rfl, holds_holdBlock _, _, holds_holdBlock _, finalBlock_one d _ _⟩

/-- `STORE` delivers what is in the State; the other micro-operations leave the block that is to be delivered as it is. -/
theorem step_computing {d : Bool} {K R : Block} {n : Nat} {s : State} (h : Computing d K R n s) (hn : n ≤ 42)
    (hr : s.ports.resetReq = false) : ∃ t : State, step s = .next t ∧ Delivering d K R (n + 1) t := by
  obtain ⟨hat, hd, hK, S, hS, hR⟩ := h
  obtain ⟨hb, hop, rfl⟩ := (atIndex_iff_inOperation hn).1 hat
  obtain ⟨i, hi⟩ : ∃ i, (program d)[s.upc.toNat]? = some i :=
    ⟨_, List.getElem?_eq_getElem (by rw [program_length]; omega)⟩
  obtain ⟨u, hw, hu⟩ := mprogWord_of_program hi
  have hexec : step s = exec i s := (step_busy hr hb).trans (engineStep_of_fetch (fetch_of_word hd hw) hu)
  rw [finalBlock_step hi] at hR
  obtain ⟨t, ht, hnext⟩ := step_inOperation hop hb hr
  have heq {x : State} (hx : exec i s = .next x) : x = t := Host.Outcome.next.inj (hx.symm.trans (hexec.symm.trans ht))
  refine ⟨t, ht, ?_⟩
  obtain ⟨hlow, -⟩ := hop.index_range
  rcases uop_cases hw hu hlow with ⟨h1, rfl⟩ | ⟨h42, rfl⟩ | ⟨h2, hne, htrans⟩
  · rw [delivering_iff_computing (by omega)]
    obtain ⟨hframe, -, hst, -⟩ := instructionsWriteOnlyTheirRegisters _ _ _ (hexec.symm.trans ht)
    obtain ⟨hkey, -, hfwd, -⟩ := hframe (by decide)
    exact ⟨hnext, hfwd.trans hd, hkey ▸ hK, S, hst rfl ▸ hS, hR⟩
  · rw [delivering_iff_delivered (by omega)]
    obtain rfl := heq (exec_store_of_holds hS)
    rw [h42] at hR
    exact ⟨s, by rw [← hR]; cases d <;> rfl⟩
  · rw [delivering_iff_computing (by omega)]
    obtain ⟨K', hK', hsched⟩ := hop.exists_holds_key
    obtain rfl := holds_unique hK hK'
    obtain rfl := heq (exec_uopEffect htrans hS (hsched h2))
    exact ⟨hnext, hd, hK, _, holds_holdBlock _, hR⟩

theorem step_delivering {d : Bool} {K R : Block} {n : Nat} {s : State} (h : Delivering d K R n s) (hn : n ≤ 42)
    {q : Ports} (hr : q.resetReq = false) : ∃ t : State, step (s.drive q) = .next t ∧ Delivering d K R (n + 1) t := by
  have hc : Computing d K R n s := (delivering_iff_computing hn).1 h
  exact step_computing (s := s.drive q) hc hn hr

/-! ## Runs of an operation -/

theorem runDriven_delivering (ps : List Ports) {d : Bool} {K R : Block} {n : Nat} {s : State} (h : Delivering d K R n s)
    (hlen : n + ps.length ≤ 43) (hr : ∀ q ∈ ps, q.resetReq = false) :
    ∃ t : State, runDriven ps s = .next t ∧ Delivering d K R (n + ps.length) t := by
  induction ps generalizing n s with
  | nil => exact ⟨s, rfl, h⟩
  | cons p ps ih =>
    obtain ⟨hp, hps⟩ := List.forall_mem_cons.1 hr
    rw [List.length_cons] at hlen
    obtain ⟨t, ht, hnext⟩ := step_delivering h (by omega) hp
    rw [runDriven_cons_of_next ht, List.length_cons, ← Nat.add_assoc, Nat.add_right_comm]
    exact ih hnext (by omega) hps

/-- What an engine shows stays, as long as the host offers no command and requests no reset. -/
theorem runDriven_idle (ps : List Ports) {s : State} (hb : s.busy = false)
    (hps : ∀ q ∈ ps, q.cmdValid = false ∧ q.resetReq = false) :
    ∃ t : State, runDriven ps s = .next t ∧ observe t = observe s := by
  induction ps generalizing s with
  | nil => exact ⟨s, rfl, rfl⟩
  | cons p ps ih =>
    obtain ⟨⟨hv, hr⟩, hps⟩ := List.forall_mem_cons.1 hps
    rw [runDriven_cons_of_next (step_idle (s := s.drive p) hr hb hv)]
    exact ih (s := s.drive p) hb hps

/-- An accepted command and 42 further steps deliver the cipher function of the command's direction. -/
theorem operation_delivers {s : State} {p : Ports} {ps : List Ports} (hb : s.busy = false) (hv : p.cmdValid = true)
    (hr : p.resetReq = false) (hlen : ps.length = 42) (hps : ∀ q ∈ ps, q.resetReq = false) :
    ∃ x : State, runDriven (p :: ps) s =
      .next (storedFrom (cipherBlock p.cmdFwd (unpack p.cmdBlock) (unpack p.cmdKey)) x) := by
  rw [runDriven_cons_of_next (step_accept (s := s.drive p) hr hb hv)]
  obtain ⟨t, ht, hend⟩ := runDriven_delivering ps (delivering_loadFrom p.cmdFwd (s.drive p)) (by omega) hps
  obtain ⟨x, rfl⟩ := (delivering_iff_delivered (by omega)).1 hend
  exact ⟨x, ht⟩

/-- A delivered block stands in `OUT` and is shown until the host acts. -/
theorem storedFrom_shows (R : Block) (x : State) : Holds (storedFrom R x).out R ∧
    ∀ qs : List Ports, (∀ q ∈ qs, q.cmdValid = false ∧ q.resetReq = false) →
      ∃ u : State, runDriven qs (storedFrom R x) = .next u ∧ observe u = ⟨true, false, true, some (pack R)⟩ := by
  refine ⟨holds_storedFrom_out R x, fun qs hqs => ?_⟩
  obtain ⟨u, hu, hobs⟩ := runDriven_idle qs (s := storedFrom R x) rfl hqs
  exact ⟨u, hu, hobs.trans (observe_storedFrom R x)⟩

/-- Settles O44. -/
theorem encryptOperationDelivers : Obligations.EncryptOperationDelivers := by
  intro s p ps hb hv hd hr hlen hps
  obtain ⟨x, hx⟩ := operation_delivers hb hv hr hlen hps
  rw [hd] at hx
  exact ⟨_, hx, storedFrom_shows _ x⟩

/-- Settles O45. -/
theorem decryptOperationDelivers : Obligations.DecryptOperationDelivers := by
  intro s p ps hb hv hd hr hlen hps
  obtain ⟨x, hx⟩ := operation_delivers hb hv hr hlen hps
  rw [hd] at hx
  exact ⟨_, hx, storedFrom_shows _ x⟩

/-! ## Known answers and packing -/

theorem encryptBlock_knownAnswer :
    encryptBlock (unpack 0x00112233445566778899aabbccddeeff) (unpack 0x000102030405060708090a0b0c0d0e0f) =
      unpack 0x69c4e0d86a7b0430d8cdb78070b4c55a := by decide +kernel

/-- Settles O42: encryption is evaluated, and decryption inverts it (`decryptBlock_encryptBlock`). -/
theorem knownAnswerVectors : Obligations.KnownAnswerVectors :=
  ⟨encryptBlock_knownAnswer, encryptBlock_knownAnswer ▸ decryptBlock_encryptBlock _ _, by decide +kernel⟩

theorem unpack_pack (B : Block) : unpack (pack B) = B := by
  ext i hi : 1
  rw [getElem_unpack]
  exact portByte_pack B ⟨i, hi⟩

/-- Settles O58. -/
theorem portPackingIsInverse : Obligations.PortPackingIsInverse :=
  ⟨fun v i => getElem_unpack v i i.isLt, unpack_pack, pack_unpack⟩

end Sys2Proof.Machine
end

section
/-! The text form of a block, nibble by nibble, and what validation decides. -/

namespace Sys2Proof.Machine

/-! ## Digits (R191, R193) -/

/-- The 22 digits. -/
abbrev hexChars : List Char :=
  ['0', '1', '2', '3', '4', '5', '6', '7', '8', '9', 'a', 'b', 'c', 'd', 'e', 'f', 'A', 'B', 'C', 'D', 'E', 'F']

/-- The digit of the value of each of the 22 is the digit itself in lower case. -/
theorem map_hexDigit_hexval {ch : Char} (h : ch ∈ hexChars) : (hexval ch).map hexDigit = some ch.toLower := by
  have hall : hexChars.all (fun c => decide ((hexval c).map hexDigit = some c.toLower)) = true := by decide
  exact of_decide_eq_true (List.all_eq_true.1 hall ch h)

theorem hexval_ne_none_iff {ch : Char} : hexval ch ≠ none ↔ ch ∈ hexChars := by
  constructor
  · intro h
    unfold hexval at h
    split at h
    case h_23 => exact absurd rfl h
    all_goals decide
  · intro h hnone
    simpa [hnone] using map_hexDigit_hexval h

theorem hexval_hexDigit : ∀ v : Nibble, hexval (hexDigit v) = some v := by decide

theorem toLower_hexDigit : ∀ v : Nibble, (hexDigit v).toLower = hexDigit v := by decide

theorem hexDigit_mem_digits : ∀ v : Nibble, some (hexDigit v) = "0123456789abcdef".toList[v.toNat]? := by decide

/-- The digit of a character's value is the character in lower case. -/
theorem hexDigit_of_hexval {ch : Char} {v : Nibble} (h : hexval ch = some v) : hexDigit v = ch.toLower := by
  have hch : ch ∈ hexChars := hexval_ne_none_iff.1 (by simp [h])
  simpa [h] using map_hexDigit_hexval hch

/-! ## Bytes and blocks as text (R192, R193) -/

theorem append_nibbles (b : Byte) : b.extractLsb' 4 4 ++ b.extractLsb' 0 4 = b := by
  rw [BitVec.extractLsb'_append_extractLsb'_eq_extractLsb' (by rfl)]
  exact BitVec.extractLsb'_eq_self

theorem append_eq_byte_iff {h l : Nibble} {b : Byte} : h ++ l = b ↔ h = b.extractLsb' 4 4 ∧ l = b.extractLsb' 0 4 := by
  constructor
  · rintro rfl
    revert h l
    decide
  · rintro ⟨rfl, rfl⟩
    exact append_nibbles b

/-- Characters `2i` and `2i+1` have the nibbles of `b` as their values. -/
abbrev NibblesAt (x : List Char) (i : Nat) (b : Byte) : Prop :=
  (x[2 * i]?).bind hexval = some (b.extractLsb' 4 4) ∧ (x[2 * i + 1]?).bind hexval = some (b.extractLsb' 0 4)

theorem hexByte_eq_some_iff {x : List Char} {i : Nat} {b : Byte} : hexByte x i = some b ↔ NibblesAt x i b := by
  unfold hexByte NibblesAt
  cases (x[2 * i]?).bind hexval <;> cases (x[2 * i + 1]?).bind hexval <;> simp [append_eq_byte_iff]

theorem hexDecodeBlock_eq_some_iff {x : List Char} {B : Block} :
    hexDecodeBlock x = some B ↔ x.length = 32 ∧ ∀ i : Fin 16, NibblesAt x i B[i] := by
  unfold hexDecodeBlock
  split
  · next hlen =>
    rw [readCells_eq_some_iff]
    simp [Holds, hexByte_eq_some_iff, hlen]
  · next hlen => simp [hlen]

/-- In a list of pairs laid end to end, entry `i` stands at the places `2i` and `2i+1`. -/
theorem getElem?_flatMap_pair {α β : Type} (f g : α → β) (l : List α) (i : Nat) :
    (l.flatMap fun a => [f a, g a])[2 * i]? = l[i]?.map f ∧ (l.flatMap fun a => [f a, g a])[2 * i + 1]? = l[i]?.map g := by
  induction l generalizing i with
  | nil => simp
  | cons a l ih =>
    cases i with
    | zero => simp
    | succ i => simpa [Nat.mul_add] using ih i

theorem getElem?_hexEncodeBlock (B : Block) (i : Fin 16) :
    (hexEncodeBlock B)[2 * i.val]? = some (hexDigit (B[i].extractLsb' 4 4)) ∧
      (hexEncodeBlock B)[2 * i.val + 1]? = some (hexDigit (B[i].extractLsb' 0 4)) := by
  have hpair := getElem?_flatMap_pair (fun b : Byte => hexDigit (b.extractLsb' 4 4))
    (fun b => hexDigit (b.extractLsb' 0 4)) B.toList i
  rw [show hexEncodeBlock B = B.toList.flatMap fun b => [hexDigit (b.extractLsb' 4 4), hexDigit (b.extractLsb' 0 4)] from rfl]
  simpa using hpair

theorem length_hexEncodeBlock (B : Block) : (hexEncodeBlock B).length = 32 := by
  simp [hexEncodeBlock, hexOfByte, List.length_flatMap]

theorem toLower_of_mem_hexEncodeBlock {B : Block} {ch : Char} (h : ch ∈ hexEncodeBlock B) : ch.toLower = ch := by
  obtain ⟨b, -, hb⟩ := List.mem_flatMap.1 h
  simp only [hexOfByte, List.mem_cons, List.not_mem_nil, or_false] at hb
  rcases hb with rfl | rfl <;> exact toLower_hexDigit _

theorem hexDecodeBlock_hexEncodeBlock (B : Block) : hexDecodeBlock (hexEncodeBlock B) = some B := by
  refine hexDecodeBlock_eq_some_iff.2 ⟨length_hexEncodeBlock B, fun i => ?_⟩
  obtain ⟨hhigh, hlow⟩ := getElem?_hexEncodeBlock B i
  simp [NibblesAt, hhigh, hlow, hexval_hexDigit]

/-- Encoding what was decoded gives the text back in lower case, character by character. -/
theorem hexEncodeBlock_of_hexDecodeBlock {x : List Char} {B : Block} (h : hexDecodeBlock x = some B) :
    hexEncodeBlock B = x.map Char.toLower := by
  obtain ⟨hlen, hnib⟩ := hexDecodeBlock_eq_some_iff.1 h
  have hchar {j : Nat} {v : Nibble} (hj : (x[j]?).bind hexval = some v) :
      some (hexDigit v) = (x.map Char.toLower)[j]? := by
    obtain ⟨ch, hch, hv⟩ := Option.bind_eq_some_iff.1 hj
    rw [List.getElem?_map, hch, hexDigit_of_hexval hv]
    rfl
  apply List.ext_getElem?
  intro j
  by_cases hj : j < 32
  · obtain ⟨hhigh, hlow⟩ := hnib ⟨j / 2, by omega⟩
    obtain ⟨hhigh', hlow'⟩ := getElem?_hexEncodeBlock B ⟨j / 2, by omega⟩
    obtain hpar | hpar : j = 2 * (j / 2) ∨ j = 2 * (j / 2) + 1 := by omega
    · rw [hpar]
      exact hhigh'.trans (hchar hhigh)
    · rw [hpar]
      exact hlow'.trans (hchar hlow)
  · rw [List.getElem?_eq_none (by rw [length_hexEncodeBlock]; omega), List.getElem?_eq_none (by simp [hlen]; omega)]

/-- 32 digits decode. -/
theorem exists_hexDecodeBlock {x : List Char} (hlen : x.length = 32) (hx : ∀ ch ∈ x, hexval ch ≠ none) :
    ∃ B : Block, hexDecodeBlock x = some B := by
  have hval (j : Nat) (hj : j < 32) : ∃ v, (x[j]?).bind hexval = some v := by
    have hj' : j < x.length := by omega
    obtain ⟨v, hv⟩ := Option.ne_none_iff_exists'.1 (hx x[j] (List.getElem_mem hj'))
    exact ⟨v, by simp [List.getElem?_eq_getElem hj', hv]⟩
  have hbyte (i : Fin 16) : ∃ b, hexByte x i = some b := by
    obtain ⟨h, hh⟩ := hval (2 * i) (by omega)
    obtain ⟨l, hl⟩ := hval (2 * i + 1) (by omega)
    exact ⟨h ++ l, by simp [hexByte, hh, hl]⟩
  choose f hf using hbyte
  exact ⟨Vector.ofFn f, hexDecodeBlock_eq_some_iff.2 ⟨hlen, fun i => hexByte_eq_some_iff.1 (by simp [hf])⟩⟩

/-! ## Validation (R195, R214) -/

theorem allHex_iff {x : List Char} : allHex x = true ↔ ∀ ch ∈ x, hexval ch ≠ none := by
  simp [allHex, Option.isSome_iff_ne_none]

theorem allHex_eq_false_iff {x : List Char} : allHex x = false ↔ ∃ ch ∈ x, hexval ch = none := by
  simp [allHex]

theorem validate_of_length {x k : List Char} (h : x.length ≠ 32 ∨ k.length ≠ 32) :
    validate x k = .error .invalidInputLength := by
  unfold validate
  split
  · rfl
  · next hx => rw [if_pos (h.resolve_left hx)]

theorem validate_of_lengths {x k : List Char} (hx : x.length = 32) (hk : k.length = 32) :
    validate x k = if allHex x = true ∧ allHex k = true then .ok () else .error .invalidHexCharacter := by
  rw [validate, if_neg (by simp [hx]), if_neg (by simp [hk])]
  cases allHex x <;> cases allHex k <;> rfl

/-- Length first, characters second. -/
theorem validate_iff (x k : List Char) :
    (validate x k = .error .invalidInputLength ↔ x.length ≠ 32 ∨ k.length ≠ 32) ∧
    (validate x k = .error .invalidHexCharacter ↔
      x.length = 32 ∧ k.length = 32 ∧ ((∃ ch ∈ x, hexval ch = none) ∨ ∃ ch ∈ k, hexval ch = none)) ∧
    (validate x k = .ok () ↔
      x.length = 32 ∧ k.length = 32 ∧ (∀ ch ∈ x, hexval ch ≠ none) ∧ ∀ ch ∈ k, hexval ch ≠ none) := by
  by_cases hlen : x.length = 32 ∧ k.length = 32
  · obtain ⟨hx, hk⟩ := hlen
    rw [validate_of_lengths hx hk, ← allHex_iff, ← allHex_iff, ← allHex_eq_false_iff, ← allHex_eq_false_iff]
    cases allHex x <;> cases allHex k <;> simp [hx, hk]
  · rw [not_and_or] at hlen
    rw [validate_of_length hlen]
    have hno (P : Prop) : ¬(x.length = 32 ∧ k.length = 32 ∧ P) := fun ⟨hx, hk, _⟩ => hlen.elim (· hx) (· hk)
    simp [hlen, hno]

theorem adapterCall_of_error {d : Bool} {x k : List Char} {rs : List Bool} {e : AdapterError} {s : State}
    (h : validate x k = .error e) : adapterCall d x k rs s = .error e s := by
  simp [adapterCall, h]

theorem errorCode_ne_three (e : Option AdapterError) : errorCode e ≠ 3#2 := by
  obtain _ | _ | _ := e <;> decide

/-- Settles O59. -/
theorem textFormAndItsErrors : Obligations.TextFormAndItsErrors := by
  refine ⟨rfl, rfl, rfl, fun x B => hexDecodeBlock_eq_some_iff.1, fun B i => ?_, ⟨rfl, rfl, rfl, errorCode_ne_three⟩,
    fun B => ⟨hexDecodeBlock_hexEncodeBlock B, length_hexEncodeBlock B, fun _ => toLower_of_mem_hexEncodeBlock⟩,
    fun x hlen hx => ?_, fun _ => hexval_ne_none_iff, validate_iff, fun _ _ _ _ _ _ => adapterCall_of_error⟩
  · rw [← hexDigit_mem_digits, ← hexDigit_mem_digits]
    exact getElem?_hexEncodeBlock B i
  · obtain ⟨B, hB⟩ := exists_hexDecodeBlock hlen hx
    exact ⟨B, hB, hexEncodeBlock_of_hexDecodeBlock hB⟩

end Sys2Proof.Machine
end

section
/-! A call of the adapter: it waits, offers until accepted, waits again and reads; a reset behind the acceptance leaves it
waiting. -/

namespace Sys2Proof.Machine

/-! ## Waiting -/

/-- Waiting follows an engine that comes nearer to an event index by index; `A n` says that it is at index `n` of 1..42, at
which the awaited level is not there. -/
theorem waitThen_replicate {level : State → Bool} {A : Nat → State → Prop}
    (hA : ∀ n s, n ≤ 42 → A n s → level s = false ∧
      ∀ q : Ports, q.resetReq = false → ∃ t : State, step (s.drive q) = .next t ∧ A (n + 1) t)
    (k : Continuation) (rs : List Bool) (m : Nat) {n : Nat} {s : State} (h : A n s) (hm : n + m ≤ 43) :
    ∃ t : State, waitThen level k (List.replicate m false ++ rs) s = waitThen level k rs t ∧ A (n + m) t := by
  induction m generalizing n s with
  | zero => exact ⟨s, rfl, h⟩
  | succ m ih =>
    obtain ⟨hlevel, hstep⟩ := hA n s (by omega) h
    obtain ⟨t, ht, hnext⟩ := hstep { s.ports with cmdValid := false, resetReq := false } rfl
    rw [List.replicate_succ, List.cons_append, waitThen_step hlevel ht, Nat.add_left_comm, Nat.add_comm m]
    exact ih hnext (by omega)

theorem AtIndex.step_drive {n : Nat} {s : State} (h : AtIndex n s) (hn : n ≤ 42) (q : Ports) (hq : q.resetReq = false) :
    ∃ t : State, step (s.drive q) = .next t ∧ AtIndex (n + 1) t := by
  obtain ⟨hb, hop, rfl⟩ := (atIndex_iff_inOperation hn).1 h
  exact step_inOperation (s := s.drive q) hop hb hq

/-- In an operation neither status level that the adapter waits for is there. -/
theorem AtIndex.levels {n : Nat} {s : State} (h : AtIndex n s) (hn : n ≤ 42) : cmdReady s = false ∧ donePort s = false := by
  obtain ⟨hb, ⟨hd, -⟩, -⟩ := (atIndex_iff_inOperation hn).1 h
  exact ⟨by simp [cmdReady, hb], hd⟩

/-- Waiting for `cmd_ready` ends with the operation in progress. -/
theorem waitThen_ready {n : Nat} {s : State} (h : AtIndex n s) (hn : n ≤ 43) (k : Continuation) (rs : List Bool) :
    ∃ t : State, waitThen cmdReady k (List.replicate (43 - n) false ++ rs) s = k rs t ∧ t.busy = false := by
  obtain ⟨t, ht, hat⟩ := waitThen_replicate (A := AtIndex) (fun _ _ hn h => ⟨(h.levels hn).1, h.step_drive hn⟩) k rs
    (43 - n) h (by omega)
  obtain ⟨hb, -⟩ := (atIndex_iff_ended (by omega)).1 hat
  exact ⟨t, ht.trans (waitThen_of_level (by simp [cmdReady, hb]) k rs), hb⟩

/-- Waiting for `done` follows the operation, absent a reset. -/
theorem waitThen_done_atIndex {n m : Nat} {s : State} (h : AtIndex n s) (hm : n + m ≤ 43) (k : Continuation)
    (rs : List Bool) :
    ∃ t : State, waitThen donePort k (List.replicate m false ++ rs) s = waitThen donePort k rs t ∧ AtIndex (n + m) t :=
  waitThen_replicate (A := AtIndex) (fun _ _ hn h => ⟨(h.levels hn).2, h.step_drive hn⟩) k rs m h hm

/-- Waiting for `done` from the acceptance on ends with the delivery. -/
theorem waitThen_done_delivering {d : Bool} {K R : Block} {s : State} (h : Delivering d K R 1 s) (k : Continuation)
    (rs : List Bool) :
    ∃ x : State, waitThen donePort k (List.replicate 42 false ++ rs) s = k rs (storedFrom R x) := by
  have hA (n : Nat) (s : State) (hn : n ≤ 42) (h : Delivering d K R n s) : donePort s = false ∧
      ∀ q : Ports, q.resetReq = false → ∃ t : State, step (s.drive q) = .next t ∧ Delivering d K R (n + 1) t := by
    obtain ⟨hat, -⟩ := (delivering_iff_computing hn).1 h
    exact ⟨(hat.levels hn).2, fun _ hq => step_delivering h hn hq⟩
  obtain ⟨t, ht, hend⟩ := waitThen_replicate hA k rs 42 h (by omega)
  obtain ⟨x, rfl⟩ := (delivering_iff_delivered (by omega)).1 hend
  exact ⟨x, ht.trans (waitThen_of_level rfl k rs)⟩

theorem Cleared.donePort {s : State} (h : Cleared s) : donePort s = false := by
  obtain ⟨-, hd, -⟩ := h
  exact hd

/-- A cleared engine never shows `done`, however long the adapter waits. -/
theorem waitThen_done_cleared (k : Continuation) (rs : List Bool) {s : State} (h : Cleared s) :
    ∃ t : State, waitThen donePort k rs s = .waiting t ∧ Cleared t := by
  induction rs generalizing s with
  | nil => exact ⟨s, waitThen_nil h.donePort k, h⟩
  | cons r rs ih =>
    obtain ⟨t, ht, hcleared⟩ := step_cleared h (p := { s.ports with cmdValid := false, resetReq := r }) rfl
    rw [waitThen_step h.donePort ht]
    exact ih hcleared

/-! ## Offering -/

/-- The ports while the adapter offers and a reset is requested. -/
def offeredInReset (d : Bool) (B K : Block) : Ports :=
  { cmdValid := true, cmdFwd := d, cmdBlock := pack B, cmdKey := pack K, resetReq := true }

/-- Resets take steps of the offer and leave it up. -/
theorem offerThen_resets (d : Bool) (B K : Block) (k : Continuation) (rs : List Bool) (n : Nat) (s : State) :
    ∃ t : State, offerThen d B K k (List.replicate (n + 1) true ++ rs) s = offerThen d B K k rs t ∧ t.busy = false ∧
      t.ports = offeredInReset d B K := by
  induction n generalizing s with
  | zero => exact ⟨_, offerThen_reset s d B K k rs, rfl, rfl⟩
  | succ n ih =>
    rw [List.replicate_succ, List.cons_append, offerThen_reset]
    exact ih _

/-- With any number of resets, none included, an offer to a ready engine is accepted in the first step without one. -/
theorem offerThen_resets_accepted {s : State} (hb : s.busy = false) (d : Bool) (B K : Block) (k : Continuation)
    (rs : List Bool) (n : Nat) : ∃ t : State,
      offerThen d B K k (List.replicate n true ++ false :: rs) s = k rs (loadFrom d (offer d B K false t)) := by
  cases n with
  | zero => exact ⟨s, offerThen_accepted hb d B K k rs⟩
  | succ n =>
    obtain ⟨t, ht, htb, -⟩ := offerThen_resets d B K k (false :: rs) n s
    exact ⟨t, ht.trans (offerThen_accepted htb d B K k rs)⟩

theorem runCommand_of_ready {s : State} (hb : s.busy = false) (d : Bool) (B K : Block) (rs : List Bool) :
    runCommand d B K rs s = offerThen d B K (waitThen donePort readResult) rs s :=
  waitThen_of_level (by simp [cmdReady, hb]) _ rs

/-! ## The whole call -/

/-- The call ends with the text of the cipher function, and the engine is ready in a state of the invariant. -/
def ReturnsCipherText (d : Bool) (B K : Block) (o : CallOutcome) : Prop :=
  ∃ t : State, o = .result (hexEncodeBlock (cipherBlock d B K)) t ∧ t.Inv ∧ cmdReady t = true

theorem readResult_storedFrom (R : Block) (x : State) (rs : List Bool) :
    readResult rs (storedFrom R x) = .result (hexEncodeBlock R) (storedFrom R x) := by
  rw [readResult, readOutBlock_storedFrom]
  simp only [unpack_pack]

theorem delivering_offered (d : Bool) (B K : Block) (s : State) :
    Delivering d K (cipherBlock d B K) 1 (loadFrom d (offer d B K false s)) := by
  have h := delivering_loadFrom d (offer d B K false s)
  rwa [show (offer d B K false s).ports.cmdBlock = pack B from rfl,
    show (offer d B K false s).ports.cmdKey = pack K from rfl, unpack_pack, unpack_pack] at h

/-- An offer to a ready engine, through any number of resets, takes one step and 42 more behind its acceptance. -/
theorem offer_returnsCipherText {s : State} (hb : s.busy = false) (d : Bool) (B K : Block) (n : Nat) {m : Nat}
    (hm : 43 ≤ m) : ReturnsCipherText d B K (offerThen d B K (waitThen donePort readResult)
      (List.replicate n true ++ List.replicate m false) s) := by
  obtain ⟨l, rfl⟩ := Nat.exists_eq_add_of_le hm
  rw [← List.replicate_append_replicate]
  obtain ⟨t, ht⟩ := offerThen_resets_accepted hb d B K (waitThen donePort readResult)
    (List.replicate 42 false ++ List.replicate l false) n
  obtain ⟨x, hx⟩ := waitThen_done_delivering (delivering_offered d B K t) readResult (List.replicate l false)
  exact ⟨_, ht.trans (hx.trans (readResult_storedFrom _ x _)), storedFrom_inv _ x, rfl⟩

/-- A call on any engine of the invariant: an operation in progress ends by itself or by the first reset. -/
theorem runCommand_returnsCipherText {s : State} (hs : s.Inv) (d : Bool) (B K : Block) (n : Nat) {rs : List Bool}
    (hlen : 85 ≤ rs.length) (hrs : ∀ r ∈ rs, r = false) :
    ReturnsCipherText d B K (runCommand d B K (List.replicate n true ++ rs) s) := by
  rw [List.eq_replicate_iff.2 ⟨rfl, hrs⟩]
  cases hb : s.busy with
  | false =>
    rw [runCommand_of_ready hb]
    exact offer_returnsCipherText hb d B K n (by omega)
  | true =>
    have hop := hs.inOperation hb
    obtain ⟨hlow, hhigh⟩ := hop.index_range
    cases n with
    | zero =>
      have hat : AtIndex s.upc.toNat s := (atIndex_iff_inOperation hhigh).2 ⟨hb, hop, rfl⟩
      have hsplit : rs.length = (43 - s.upc.toNat) + (rs.length - (43 - s.upc.toNat)) := by omega
      rw [hsplit, ← List.replicate_append_replicate]
      obtain ⟨t, ht, htb⟩ := waitThen_ready hat (by omega) (offerThen d B K (waitThen donePort readResult))
        (List.replicate (rs.length - (43 - s.upc.toNat)) false)
      rw [List.replicate_zero, List.nil_append, runCommand, ht]
      exact offer_returnsCipherText htb d B K 0 (by omega)
    | succ n =>
      have hreset : step (withdraw true s) = .next (resetEvent (withdraw true s)) := step_reset rfl
      rw [List.replicate_succ, List.cons_append, runCommand, waitThen_step (by simp [cmdReady, hb]) hreset,
        waitThen_of_level rfl]
      exact offer_returnsCipherText rfl d B K n (by omega)

theorem adapterCall_of_valid {x k : List Char} {B K : Block} (hv : validate x k = .ok ()) (hx : hexDecodeBlock x = some B)
    (hk : hexDecodeBlock k = some K) (d : Bool) (rs : List Bool) (s : State) :
    adapterCall d x k rs s = runCommand d B K rs s := by
  simp [adapterCall, hv, hx, hk]

/-- While a reset takes every step, the offer of a ready engine stays up. -/
theorem runCommand_resets {s : State} (hb : s.busy = false) (d : Bool) (B K : Block) (n : Nat) :
    ∃ t : State, runCommand d B K (List.replicate (n + 1) true) s = .waiting t ∧ t.ports = offeredInReset d B K := by
  obtain ⟨t, ht, -, hp⟩ := offerThen_resets d B K (waitThen donePort readResult) [] n s
  rw [List.append_nil] at ht
  exact ⟨t, (runCommand_of_ready hb d B K _).trans ht, hp⟩

/-- A reset within 42 steps of the acceptance abandons the operation, and the call waits on. -/
theorem runCommand_abandoned {s : State} (hb : s.busy = false) (d : Bool) (B K : Block) (n : Nat) {m : Nat} (hm : m < 42)
    (rs : List Bool) : ∃ t : State,
      runCommand d B K (List.replicate n true ++ List.replicate (m + 1) false ++ true :: rs) s = .waiting t ∧
        busyPort t = false ∧ donePort t = false := by
  rw [runCommand_of_ready hb, List.append_assoc, List.replicate_succ, List.cons_append]
  obtain ⟨t, ht⟩ := offerThen_resets_accepted hb d B K (waitThen donePort readResult)
    (List.replicate m false ++ true :: rs) n
  obtain ⟨x, hx, hat⟩ := waitThen_done_atIndex (atIndex_loadFrom d (offer d B K false t)) (m := m) (by omega) readResult
    (true :: rs)
  have hreset : step (withdraw true x) = .next (resetEvent (withdraw true x)) := step_reset rfl
  obtain ⟨u, hu, hubusy, hudone, -⟩ := waitThen_done_cleared readResult rs (cleared_resetEvent (withdraw true x))
  refine ⟨u, ?_, hubusy, hudone⟩
  rw [ht, hx, waitThen_step (hat.levels (by omega)).2 hreset, hu]

/-- Settles O60: past validation the call is `runCommand` on the decoded blocks. -/
theorem adapterReturnsTheCipherText : Obligations.AdapterReturnsTheCipherText := by
  intro x k B K s hs hv hx hk
  have hcall := adapterCall_of_valid hv hx hk
  have hbusy (hready : cmdReady s = true) : s.busy = false := by simpa [cmdReady] using hready
  refine ⟨fun n rs hlen hrs => ⟨?_, ?_⟩, fun hready d n => ?_, fun hready d n m rs hm => ?_⟩
  · rw [adapterEncrypt, hcall]
    exact runCommand_returnsCipherText hs true B K n hlen hrs
  · rw [adapterDecrypt, hcall]
    exact runCommand_returnsCipherText hs false B K n hlen hrs
  · obtain ⟨t, ht, hp⟩ := runCommand_resets (hbusy hready) d B K n
    exact ⟨t, by rw [hcall, ht], by rw [hp]; exact ⟨rfl, rfl, rfl, rfl⟩⟩
  · rw [hcall]
    exact runCommand_abandoned (hbusy hready) d B K n hm rs

end Sys2Proof.Machine
end
